-- ==== Sys2Proof/Word.lean ====
section
/-! DEFINITION. The words of the MFPD: a byte of a magnitude or of DIN, the 32-bit bus and command word, the 64-bit
result, the 12-bit byte address of the register window, and the 4-bit register index (R7, R50, R80). -/

namespace Sys2Proof

/-- One byte of a magnitude or of DIN (R8). -/
abbrev Byte := BitVec 8

/-- A bus data word, a command word, ARG or a SCALE: 32 bits (R7). -/
abbrev Word := BitVec 32

/-- RES: 64 bits (R7, R31). -/
abbrev DWord := BitVec 64

/-- A byte address of the register window: 12 bits (R50, R51). -/
abbrev Addr := BitVec 12

/-- A value register index as a command word carries it: an unsigned 4-bit field (R80, R83). -/
abbrev RegIdx := BitVec 4

end Sys2Proof
end

