-- ==== Sys2Proof/Syntax.lean ====
section
/-! DEFINITION. The commands of the MFPD, one constructor per row of spec/opcode_table.json (R84), with exactly the
fields that the row's command uses. -/

namespace Sys2Proof

/-- A command with its used fields (R80, R84). -/
inductive Instr where
  /-- CREATE_BUFFER vd (R100) -/
  | createBuffer (vd : RegIdx)
  /-- GROW_BUFFER vd (R101) -/
  | growBuffer (vd : RegIdx)
  /-- RELEASE vd (R102) -/
  | release (vd : RegIdx)
  /-- COPY vd, va (R103) -/
  | copy (vd va : RegIdx)
  /-- FROM_S64 vd (R141) -/
  | fromS64 (vd : RegIdx)
  /-- FROM_U64 vd (R142) -/
  | fromU64 (vd : RegIdx)
  /-- FROM_F64 vd (R143) -/
  | fromF64 (vd : RegIdx)
  /-- FROM_F32 vd (R144) -/
  | fromF32 (vd : RegIdx)
  /-- DEC_MANT vd (R126) -/
  | decMant (vd : RegIdx)
  /-- DEC_FFP32 vd (R162) -/
  | decFfp32 (vd : RegIdx)
  /-- DEC_EXT80 vd (R163) -/
  | decExt80 (vd : RegIdx)
  /-- DEC_QUAD128 vd (R164) -/
  | decQuad128 (vd : RegIdx)
  /-- LOAD_RAW vd, S (R165) -/
  | loadRaw (vd : RegIdx) (neg : Bool)
  /-- ADD vd, va, vb (R184) -/
  | add (vd va vb : RegIdx)
  /-- SUB vd, va, vb (R185) -/
  | sub (vd va vb : RegIdx)
  /-- SCALE_TO vd (R187) -/
  | scaleTo (vd : RegIdx)
  /-- TO_U64 va (R188) -/
  | toU64 (va : RegIdx)
  /-- TO_F64 va (R189) -/
  | toF64 (va : RegIdx)
deriving DecidableEq, Repr

/-- The 18 opcodes of R84, named by their mnemonics. -/
inductive Opcode where
  | createBuffer | growBuffer | release | copy
  | fromS64 | fromU64 | fromF64 | fromF32
  | decMant | decFfp32 | decExt80 | decQuad128 | loadRaw
  | add | sub | scaleTo
  | toU64 | toF64
deriving DecidableEq, Repr

end Sys2Proof
end

