-- ==== Sys2Proof/Decode.lean ====
section
/-! DEFINITION. Decoding and encoding of the 32-bit command word, format CMD32 (R80 to R85). The decoder makes the
checks of R82 that need no parameter, in R82's order, and rejects by name; the BAD_REG check, which needs P_NV, is made
by the meaning before anything else (log 7). -/

namespace Sys2Proof

/-- Why the decoder rejects a word (R82, R85). Each reason is reported as ILLEGAL_CMD. -/
inductive Reject where
  /-- OPC is not in the opcode map of R84. -/
  | unknownOpcode
  /-- RSV, bits 31:21, is not 0. -/
  | reservedBits
  /-- A field that the command does not use is not 0. -/
  | unusedField
deriving DecidableEq, Repr

/-- Which of the fields VD, VA, VB and S a command uses (R84). -/
structure FieldUse where
  vd : Bool
  va : Bool
  vb : Bool
  s : Bool
deriving DecidableEq, Repr

/-- OPC of each command (R84). -/
def Opcode.code : Opcode → BitVec 8
  | .createBuffer => 0x01#8
  | .growBuffer => 0x02#8
  | .release => 0x03#8
  | .copy => 0x04#8
  | .fromS64 => 0x10#8
  | .fromU64 => 0x11#8
  | .fromF64 => 0x12#8
  | .fromF32 => 0x13#8
  | .decMant => 0x20#8
  | .decFfp32 => 0x21#8
  | .decExt80 => 0x22#8
  | .decQuad128 => 0x23#8
  | .loadRaw => 0x24#8
  | .add => 0x30#8
  | .sub => 0x31#8
  | .scaleTo => 0x38#8
  | .toU64 => 0x40#8
  | .toF64 => 0x41#8

/-- The fields each command uses (the column "uses" of R84). -/
def Opcode.uses : Opcode → FieldUse
  | .copy => { vd := true, va := true, vb := false, s := false }
  | .loadRaw => { vd := true, va := false, vb := false, s := true }
  | .add => { vd := true, va := true, vb := true, s := false }
  | .sub => { vd := true, va := true, vb := true, s := false }
  | .toU64 => { vd := false, va := true, vb := false, s := false }
  | .toF64 => { vd := false, va := true, vb := false, s := false }
  | .createBuffer | .growBuffer | .release | .fromS64 | .fromU64 | .fromF64 | .fromF32 | .decMant | .decFfp32
  | .decExt80 | .decQuad128 | .scaleTo => { vd := true, va := false, vb := false, s := false }

/-- The opcode map's 18 commands, in the order of R84. -/
def Opcode.all : List Opcode :=
  [.createBuffer, .growBuffer, .release, .copy, .fromS64, .fromU64, .fromF64, .fromF32, .decMant, .decFfp32,
    .decExt80, .decQuad128, .loadRaw, .add, .sub, .scaleTo, .toU64, .toF64]

/-- The command whose OPC is `b`, if the map has one (R84, R85). -/
def opcodeOf (b : BitVec 8) : Option Opcode :=
  Opcode.all.find? fun o => o.code == b

/-- OPC, bits 7:0 (R80). -/
def opcField (w : Word) : BitVec 8 := w.extractLsb' 0 8
/-- VD, bits 11:8 (R80). -/
def vdField (w : Word) : RegIdx := w.extractLsb' 8 4
/-- VA, bits 15:12 (R80). -/
def vaField (w : Word) : RegIdx := w.extractLsb' 12 4
/-- VB, bits 19:16 (R80). -/
def vbField (w : Word) : RegIdx := w.extractLsb' 16 4
/-- S, bit 20 (R80). -/
def sField (w : Word) : Bool := w.getLsbD 20
/-- RSV, bits 31:21 (R80). -/
def rsvField (w : Word) : BitVec 11 := w.extractLsb' 21 11

/-- Some field that the command does not use is not 0 (R82). -/
def unusedNonzero (u : FieldUse) (w : Word) : Bool :=
  (!u.vd && vdField w != 0#4) || (!u.va && vaField w != 0#4) || (!u.vb && vbField w != 0#4) || (!u.s && sField w)

/-- The command of an opcode, with the fields it uses (R83, R84). -/
def Opcode.build (vd va vb : RegIdx) (neg : Bool) : Opcode → Instr
  | .createBuffer => .createBuffer vd
  | .growBuffer => .growBuffer vd
  | .release => .release vd
  | .copy => .copy vd va
  | .fromS64 => .fromS64 vd
  | .fromU64 => .fromU64 vd
  | .fromF64 => .fromF64 vd
  | .fromF32 => .fromF32 vd
  | .decMant => .decMant vd
  | .decFfp32 => .decFfp32 vd
  | .decExt80 => .decExt80 vd
  | .decQuad128 => .decQuad128 vd
  | .loadRaw => .loadRaw vd neg
  | .add => .add vd va vb
  | .sub => .sub vd va vb
  | .scaleTo => .scaleTo vd
  | .toU64 => .toU64 va
  | .toF64 => .toF64 va

/-- Decode a command word: the checks of R82 up to the register ranges, in R82's order. -/
def decode (w : Word) : Except Reject Instr :=
  match opcodeOf (opcField w) with
  | none => .error .unknownOpcode
  | some op =>
    if rsvField w ≠ 0#11 then .error .reservedBits
    else if unusedNonzero op.uses w then .error .unusedField
    else .ok (op.build (vdField w) (vaField w) (vbField w) (sField w))

/-- `OPC | VD<<8 | VA<<12 | VB<<16 | S<<20` (R84). -/
def encodeFields (op : Opcode) (vd va vb : RegIdx) (neg : Bool) : Word :=
  op.code.setWidth 32 ||| (vd.setWidth 32 <<< 8) ||| (va.setWidth 32 <<< 12) ||| (vb.setWidth 32 <<< 16) |||
    ((BitVec.ofBool neg).setWidth 32 <<< 20)

/-- The command word of a command: its fields in place, every other field 0 (R82, R84). -/
def encode : Instr → Word
  | .createBuffer vd => encodeFields .createBuffer vd 0 0 false
  | .growBuffer vd => encodeFields .growBuffer vd 0 0 false
  | .release vd => encodeFields .release vd 0 0 false
  | .copy vd va => encodeFields .copy vd va 0 false
  | .fromS64 vd => encodeFields .fromS64 vd 0 0 false
  | .fromU64 vd => encodeFields .fromU64 vd 0 0 false
  | .fromF64 vd => encodeFields .fromF64 vd 0 0 false
  | .fromF32 vd => encodeFields .fromF32 vd 0 0 false
  | .decMant vd => encodeFields .decMant vd 0 0 false
  | .decFfp32 vd => encodeFields .decFfp32 vd 0 0 false
  | .decExt80 vd => encodeFields .decExt80 vd 0 0 false
  | .decQuad128 vd => encodeFields .decQuad128 vd 0 0 false
  | .loadRaw vd neg => encodeFields .loadRaw vd 0 0 neg
  | .add vd va vb => encodeFields .add vd va vb false
  | .sub vd va vb => encodeFields .sub vd va vb false
  | .scaleTo vd => encodeFields .scaleTo vd 0 0 false
  | .toU64 va => encodeFields .toU64 0 va 0 false
  | .toF64 va => encodeFields .toF64 0 va 0 false

/-- The opcode of a command. -/
def Instr.opcode : Instr → Opcode
  | .createBuffer _ => .createBuffer
  | .growBuffer _ => .growBuffer
  | .release _ => .release
  | .copy _ _ => .copy
  | .fromS64 _ => .fromS64
  | .fromU64 _ => .fromU64
  | .fromF64 _ => .fromF64
  | .fromF32 _ => .fromF32
  | .decMant _ => .decMant
  | .decFfp32 _ => .decFfp32
  | .decExt80 _ => .decExt80
  | .decQuad128 _ => .decQuad128
  | .loadRaw _ _ => .loadRaw
  | .add _ _ _ => .add
  | .sub _ _ _ => .sub
  | .scaleTo _ => .scaleTo
  | .toU64 _ => .toU64
  | .toF64 _ => .toF64

/-- The column "match" of R84. -/
def Opcode.matchWord (o : Opcode) : Word := o.code.setWidth 32

/-- The column "mask" of R84, written out row by row from the table. -/
def Opcode.maskWord : Opcode → Word
  | .copy => 0xFFFF00FF#32
  | .loadRaw => 0xFFEFF0FF#32
  | .add => 0xFFF000FF#32
  | .sub => 0xFFF000FF#32
  | .toU64 => 0xFFFF0FFF#32
  | .toF64 => 0xFFFF0FFF#32
  | .createBuffer | .growBuffer | .release | .fromS64 | .fromU64 | .fromF64 | .fromF32 | .decMant | .decFfp32
  | .decExt80 | .decQuad128 | .scaleTo => 0xFFFFF0FF#32

/-- The instruction the decoder reads from a table word: `w`'s low `nbits` bits as the data of one CMD write, every
bit above them 0. A command is one 32-bit word (R81). -/
def decodeTableWord (nbits w : Nat) : Option Instr :=
  match decode (BitVec.ofNat 32 (w % 2 ^ nbits)) with
  | .ok i => some i
  | .error _ => none

end Sys2Proof
end

