-- ==== Sys2Proof/Config.lean ====
section
/-! DEFINITION. What an implementation of the MFPD fixes: the four build parameters of R6 with their legal ranges and
defaults, and the ID constant (R35). The spec leaves no value free ("every result is defined",
93_implementation_defined.md), so there is no free value here. -/

namespace Sys2Proof

/-- The build parameters of R6. They are no state (R38); the model carries them in `State.cfg`, which no step changes
(log 1, DESIGN CHOICE, safe: a statement about every state ranges over every parameter value). -/
structure Params where
  /-- P_NV: the number of value registers. -/
  nv : Nat
  /-- P_MAXLEN: the greatest magnitude length in bytes, and the size of DIN. -/
  maxLen : Nat
  /-- P_EXT_LEN: the LEN that DEC_EXT80 sets. -/
  extLen : Nat
  /-- P_EXT_MANT_W: the width that DEC_EXT80 passes to the mantissa extractor. -/
  extMantW : Nat
deriving DecidableEq, Repr

/-- The legal parameter values of R6. -/
abbrev Params.Legal (p : Params) : Prop :=
  (1 ≤ p.nv ∧ p.nv ≤ 16) ∧ (16 ≤ p.maxLen ∧ p.maxLen ≤ 64) ∧
    (p.extLen = 8 ∨ p.extLen = 9 ∨ p.extLen = 10) ∧ (p.extMantW = 63 ∨ p.extMantW = 64)

/-- The default parameters of R6. -/
def Config.defaults : Params := { nv := 4, maxLen := 32, extLen := 10, extMantW := 63 }

/-- The constant that ID reads, the ASCII bytes of the name as a big-endian string (R35). -/
def Config.idValue : Word := 0x4D465044#32

end Sys2Proof
end

