-- ==== Sys2Proof/Machine/State.lean ====
section
/-! DEFINITION. The architectural state of the MFPD (10_state.md), the host's accesses that are its input, the reasons
a step could stop, and the state after reset (R240). State is plain data. -/

namespace Sys2Proof.Machine

/-- A step never faults: "stuck: the block stops. No entry has this treatment" (93_implementation_defined.md), and an
error never stops the sequencer (R220). So this type has no constructor; nobody raises it (log 8, safe: a fault could
only stop the machine where the hardware goes on, and there is none). -/
inductive Fault where
deriving DecidableEq, Repr

/-- Why an instruction has no next state. -/
inductive Refusal where
  /-- Raised by `exec` alone, for an instruction that has no meaning yet; no arm raises it now. Safe: a refused
  instruction proves nothing about the hardware. -/
  | notModelled (mnemonic : String)
deriving DecidableEq, Repr

/-- The error codes of STATUS.ERR (R221). Codes 7 to 15 are never written and have no constructor. -/
inductive ErrCode where
  /-- 0: success -/
  | ok
  /-- 1: OPC not in the map, RSV not 0, or an unused field not 0 -/
  | illegalCmd
  /-- 2: a used register field at or past P_NV -/
  | badReg
  /-- 3: ARG is no legal width of DEC_MANT -/
  | badWidth
  /-- 4: DIN_LEN is shorter than the format requires -/
  | invalidInput
  /-- 5: a source register is empty -/
  | emptyOperand
  /-- 6: a result or buffer would exceed P_MAXLEN bytes -/
  | capacity
deriving DecidableEq, Repr

/-- STATUS (R32). Its reserved bits are no state: they read 0 and ignore writes. -/
structure Status where
  /-- ERR, bits 3:0 -/
  err : ErrCode
  /-- LOSSY, bit 4 -/
  lossy : Bool
  /-- STICKY_ERR, bit 8 -/
  stickyErr : Bool
  /-- STICKY_LOSSY, bit 9 -/
  stickyLossy : Bool
  /-- BUS_ERR, bit 10 -/
  busErr : Bool
deriving DecidableEq, Repr

/-- One value register V[i] (R21). -/
structure ValueReg where
  /-- ALLOC: a buffer exists -/
  alloc : Bool
  /-- LEN: the magnitude's length in bytes, 0..P_MAXLEN -/
  len : Nat
  /-- SIGN: negative -/
  sign : Bool
  /-- SCALE, in either reading of R24 -/
  scale : Word
  /-- MAG[0..P_MAXLEN-1], MAG[0] least significant -/
  mag : List Byte
deriving DecidableEq, Repr

/-- The empty value register of a block with P_MAXLEN = `maxLen` (R22). -/
def ValueReg.empty (maxLen : Nat) : ValueReg :=
  { alloc := false, len := 0, sign := false, scale := 0#32, mag := List.replicate maxLen 0#8 }

/-- One thing the host does to the block (R50, R65): a bus access of `size` bytes, or asserting reset. -/
inductive HostEvent where
  /-- BusRead(addr, size) -/
  | read (addr : Addr) (size : Nat)
  /-- BusWrite(addr, size, data) -/
  | write (addr : Addr) (size : Nat) (data : Word)
  /-- asserting the reset input (R240, R243) -/
  | reset
deriving DecidableEq, Repr

/-- The state of the block, with the model's own `cfg`, `pending` and `returned` (logs 1, 2, 3). -/
structure State where
  /-- The build parameters (R6, R38): the model's own field, which no step changes. -/
  cfg : Params
  /-- The value registers V[0..P_NV-1] (R21). -/
  v : List ValueReg
  /-- DIN[0..P_MAXLEN-1] (R28). -/
  din : List Byte
  /-- DIN_LEN, 0..P_MAXLEN (R28). -/
  dinLen : Nat
  /-- ARG (R29). -/
  arg : Word
  /-- RES (R31). -/
  res : DWord
  /-- STATUS (R32). -/
  status : Status
  /-- The adder's carry register (R37): not observable, 9 bits (log 6). -/
  carry : BitVec 9
  /-- What the host does next, oldest first: the model's input (R38, R65). -/
  pending : List HostEvent
  /-- The data that host reads have returned, oldest first: the model's output (R50). -/
  returned : List Word
deriving DecidableEq, Repr

/-- STATUS after reset: every field 0 (R240). -/
def Status.clear : Status :=
  { err := .ok, lossy := false, stickyErr := false, stickyLossy := false, busErr := false }

/-- The reset state of R240 for a block with the parameters `p`, with no host access pending. -/
def State.resetWith (p : Params) : State :=
  { cfg := p
    v := List.replicate p.nv (ValueReg.empty p.maxLen)
    din := List.replicate p.maxLen 0#8
    dinLen := 0
    arg := 0#32
    res := 0#64
    status := Status.clear
    carry := 0#9
    pending := []
    returned := [] }

/-- The machine right after reset (R240), with the default parameters of R6 (log 1). -/
def State.reset : State := State.resetWith Config.defaults

end Sys2Proof.Machine
end

