-- ==== Sys2Proof/Machine/Flags.lean ====
section
/-! DEFINITION. STATUS: its value as a 32-bit word (R32), the error codes' numbers (R221), what an error and a success
write to it (R222, R223), and the write-1-to-clear of R33. -/

namespace Sys2Proof.Machine

/-- The number of an error code (R221). -/
def ErrCode.code : ErrCode → Nat
  | .ok => 0
  | .illegalCmd => 1
  | .badReg => 2
  | .badWidth => 3
  | .invalidInput => 4
  | .emptyOperand => 5
  | .capacity => 6

/-- `b` as bit `n` of a 32-bit word. -/
def bitAt (n : Nat) (b : Bool) : Word := (BitVec.ofBool b).setWidth 32 <<< n

/-- STATUS as the host reads it (R32): reserved bits read 0. -/
def Status.word (st : Status) : Word :=
  BitVec.ofNat 32 st.err.code ||| bitAt 4 st.lossy ||| bitAt 8 st.stickyErr ||| bitAt 9 st.stickyLossy |||
    bitAt 10 st.busErr

/-- What a failed command writes to STATUS (R222): ERR, LOSSY and STICKY_ERR, no other bit. -/
def Status.afterError (e : ErrCode) (st : Status) : Status :=
  { st with err := e, lossy := false, stickyErr := true }

/-- What a completed command writes to STATUS (R223); STICKY_ERR and BUS_ERR are unchanged. -/
def Status.afterSuccess (lossy : Bool) (st : Status) : Status :=
  { st with err := .ok, lossy := lossy, stickyLossy := st.stickyLossy || lossy }

/-- A host write of `w` to STATUS (R33): a 1 in bit 8, 9 or 10 clears that sticky flag. -/
def Status.afterWrite (w : Word) (st : Status) : Status :=
  { st with
    stickyErr := st.stickyErr && !w.getLsbD 8
    stickyLossy := st.stickyLossy && !w.getLsbD 9
    busErr := st.busErr && !w.getLsbD 10 }

/-- An illegal host access sets BUS_ERR and nothing else (R226). -/
def Status.afterBusError (st : Status) : Status := { st with busErr := true }

end Sys2Proof.Machine
end

