-- ==== Sys2Proof/Machine/Ops.lean ====
section
/-! DEFINITION. The shared operations of every command: reading and writing value registers, `Commit` (R9), raising a
command error (R222), completing a command (R223), the BAD_REG check of R82, and byte sequences as integers (R8). -/

namespace Sys2Proof.Machine

/-- What a command's execution answers. -/
abbrev Result := Host.Outcome State Fault Refusal

/-- A byte sequence read as an unsigned little-endian integer (R8). -/
def leNat : List Byte → Nat
  | [] => 0
  | b :: bs => b.toNat + 256 * leNat bs

/-- `bytes_L(n)`: the `l`-byte little-endian form of `n` (R9). -/
def leBytes : Nat → Nat → List Byte
  | 0, _ => []
  | l + 1, n => BitVec.ofNat 8 n :: leBytes l (n / 256)

/-- `b` cut or zero-filled to exactly `n` bytes. -/
def fitTo (n : Nat) (b : List Byte) : List Byte := (b ++ List.replicate n 0#8).take n

/-- The magnitude bytes that exist: MAG[0..LEN-1] (R23). -/
def ValueReg.bytes (r : ValueReg) : List Byte := r.mag.take r.len

/-- `mag(i)`: the integer a register's magnitude denotes (R9). -/
def ValueReg.magNat (r : ValueReg) : Nat := leNat r.bytes

/-- Read V[i]. An index with no register reads as empty; the BAD_REG check of R82 keeps commands from it (log 9). -/
def State.reg (s : State) (i : RegIdx) : ValueReg := s.v.getD i.toNat (ValueReg.empty s.cfg.maxLen)

/-- Write all of V[i]; an index with no register is ignored (log 9). -/
def State.setReg (s : State) (i : RegIdx) (r : ValueReg) : State := { s with v := s.v.set i.toNat r }

/-- `Commit(i, len, sign, scale, b)` (R9): ALLOC becomes 1, MAG[j] becomes b[j] below `len` and 0 from `len` on. -/
def commit (i : RegIdx) (len : Nat) (sign : Bool) (scale : Word) (b : List Byte) (s : State) : State :=
  s.setReg i { alloc := true, len := len, sign := sign, scale := scale, mag := fitTo s.cfg.maxLen (b.take len) }

/-- `raise Error(e)` (R9, R222): only STATUS changes, and the sequencer goes on (R220). This is the block's whole
exception entry; it has no handler and no return (R228). -/
def raiseError (e : ErrCode) (s : State) : Result := .next { s with status := s.status.afterError e }

/-- A command completes with loss bit `lossy` (R223); its results are already written in `s`. -/
def complete (lossy : Bool) (s : State) : Result := .next { s with status := s.status.afterSuccess lossy }

/-- The register-range check of R82: BAD_REG if a used field is at or past P_NV, before any other check of the
command. -/
def withRegs (rs : List RegIdx) (s : State) (k : Result) : Result :=
  if rs.all (fun r => r.toNat < s.cfg.nv) then k else raiseError .badReg s

/-- EMPTY_OPERAND if a source register is empty (R22). -/
def withSources (rs : List RegIdx) (s : State) (k : Result) : Result :=
  if rs.all (fun r => (s.reg r).alloc) then k else raiseError .emptyOperand s

/-- CAPACITY if a result would need more than P_MAXLEN bytes (R221). -/
def withCapacity (need : Nat) (s : State) (k : Result) : Result :=
  if need > s.cfg.maxLen then raiseError .capacity s else k

/-- INVALID_INPUT if DIN_LEN is shorter than the format requires (R160, R221). -/
def withSpan (need : Nat) (s : State) (k : Result) : Result :=
  if s.dinLen < need then raiseError .invalidInput s else k

end Sys2Proof.Machine
end

