-- ==== Sys2Proof/Machine/Operands.lean ====
section
/-! DEFINITION. Where a command's operands come from (R83): bytes of DIN in either byte order, bit fields of those
bytes, ARG as an unsigned integer, the mantissa extractor (R120 to R125), and a magnitude aligned to a scale (R180). -/

namespace Sys2Proof.Machine

/-- DIN[j] (R28). -/
def State.dinByte (s : State) (j : Nat) : Byte := s.din.getD j 0#8

/-- DIN[lo..lo+n-1], the lowest index first: a little-endian field (R140, R165). -/
def State.dinUp (s : State) (lo n : Nat) : List Byte := (List.range n).map fun k => s.dinByte (lo + k)

/-- DIN[hi], DIN[hi-1], ..., `n` bytes: a big-endian field in increasing significance order (R161, R162). -/
def State.dinDown (s : State) (hi n : Nat) : List Byte := (List.range n).map fun k => s.dinByte (hi - k)

/-- ARG as an unsigned integer: a size, a width or a target scale (R83). -/
def State.argNat (s : State) : Nat := s.arg.toNat

/-- Bit 7 of a byte: the sign bit of every format (R141 to R144, R162 to R164). -/
def topBit (b : Byte) : Bool := b.getLsbD 7

/-- A byte's low 7 bits, in 32 bits. -/
def low7 (b : Byte) : Word := (b &&& 0x7F#8).setWidth 32

/-- The legal mantissa widths (R120). -/
def legalWidths : List Nat := [23, 52, 63, 64, 112]

/-- `ceil(w/8)`: the bytes of a `w`-bit field (R120). -/
def fieldBytes (w : Nat) : Nat := (w + 7) / 8

/-- The bits of the most significant byte that the extractor keeps: all but bit 7 in the even case (R122), the low
`w mod 8` in the odd case (R123). Even and odd are of `w` itself, not of multiples of 8 (R121, C1). -/
def topMask (w : Nat) : Byte :=
  if w % 2 = 0 then 0x7F#8 else BitVec.ofNat 8 (2 ^ (w % 8) - 1)

/-- `ExtractMantissa(f, w)` (R120): every byte but the most significant copied, the most significant masked; no byte
moves (R124). `f` is in increasing significance order. -/
def extractMantissa (f : List Byte) (w : Nat) : List Byte :=
  f.take (fieldBytes w - 1) ++ [f.getD (fieldBytes w - 1) 0#8 &&& topMask w]

/-- `Align(i, s)` (R180): the magnitude bytes with `d = s - SCALE` zero bytes below them. -/
def ValueReg.alignTo (r : ValueReg) (s : Nat) : List Byte :=
  List.replicate (s - r.scale.toNat) 0#8 ++ r.bytes

/-- The length of `Align(i, s)`, an exact integer with no 32-bit wrap (R184). -/
def ValueReg.alignedLen (r : ValueReg) (s : Nat) : Nat := r.len + (s - r.scale.toNat)

end Sys2Proof.Machine
end

