-- ==== Sys2Proof/Machine/Arith.lean ====
section
/-! DEFINITION. Arithmetic and rescale (44_arithmetic.md, R180 to R187): the adder, the subtractor and the comparator of
byte sequences, and ADD, SUB, SCALE_TO. Every command here reads SCALE as a byte scale, R24 (a). -/

namespace Sys2Proof.Machine

/-- The loop of MagAdd (R182) over the lowest `n` byte positions: the sum bytes and the carry register after them. A
position past an operand's end contributes 0. -/
def magAddLoop : Nat → List Byte → List Byte → BitVec 9 → List Byte × BitVec 9
  | 0, _, _, carry => ([], carry)
  | n + 1, a, b, carry =>
    let c := carry + (a.headD 0#8).setWidth 9 + (b.headD 0#8).setWidth 9
    let rest := magAddLoop n a.tail b.tail (c >>> 8)
    (c.setWidth 8 :: rest.1, rest.2)

/-- `MagAdd(a, la, b, lb)` for `l = max(la, lb)` (R182), from a carry register of 0: `l + 1` bytes, the last the
leftover carry; and the carry register's final value (log 6). -/
def magAdd (l : Nat) (a b : List Byte) : List Byte × BitVec 9 :=
  let r := magAddLoop l a b 0#9
  (r.1 ++ [r.2.setWidth 8], r.2)

/-- The loop of MagSub (R183) over the lowest `n` byte positions, with borrow 0 or 1. -/
def magSubLoop : Nat → List Byte → List Byte → Nat → List Byte
  | 0, _, _, _ => []
  | n + 1, a, b, borrow =>
    let t : Int := (a.headD 0#8).toNat - (b.headD 0#8).toNat - borrow
    BitVec.ofInt 8 t :: magSubLoop n a.tail b.tail (if t < 0 then 1 else 0)

/-- `MagSub(a, la, b, lb)` for `l = max(la, lb)` (R183): `l + 1` bytes, the last 0. -/
def magSub (l : Nat) (a b : List Byte) : List Byte := magSubLoop l a b 0 ++ [0#8]

/-- `MagCmp(a, la, b, lb)` for `l = max(la, lb)` (R181): from index `l - 1` down to 0, the first difference decides; a
missing byte counts as 0. -/
def magCmp : Nat → List Byte → List Byte → Ordering
  | 0, _, _ => .eq
  | j + 1, a, b =>
    let x := (a.getD j 0#8).toNat
    let y := (b.getD j 0#8).toNat
    if x = y then magCmp j a b else if y < x then .gt else .lt

/-- The body that ADD and SUB share (R184, R185): the sum of V[va] and V[vb], with `sb` as V[vb]'s sign. Both operands
are read before V[vd] is written (R9), so `vd` may be `va` or `vb`. -/
def addSigned (vd va vb : RegIdx) (sb : Bool) (s : State) : Result :=
  withSources [va, vb] s <|
  let ra := s.reg va
  let rb := s.reg vb
  let sc := max ra.scale.toNat rb.scale.toNat
  let l := max (ra.alignedLen sc) (rb.alignedLen sc)
  withCapacity (l + 1) s <|
  let a := ra.alignTo sc
  let b := rb.alignTo sc
  let sum := magAdd l a b
  -- the result's bytes, its sign before R186, and the carry register
  let out : List Byte × Bool × BitVec 9 :=
    if ra.sign = sb then (sum.1, ra.sign, sum.2)
    else if magCmp l a b = .lt then (magSub l b a, sb, 0#9)
    else (magSub l a b, ra.sign, 0#9)
  -- a result of magnitude 0 has SIGN 0 (R186)
  let sg := out.2.1 && leNat out.1 != 0
  complete false { commit vd (l + 1) sg (BitVec.ofNat 32 sc) out.1 s with carry := out.2.2 }

/-- ADD vd, va, vb (R184). -/
def execAdd (vd va vb : RegIdx) (s : State) : Result :=
  withRegs [vd, va, vb] s <|
  addSigned vd va vb (s.reg vb).sign s

/-- SUB vd, va, vb (R185): as ADD with V[vb]'s sign inverted. -/
def execSub (vd va vb : RegIdx) (s : State) : Result :=
  withRegs [vd, va, vb] s <|
  addSigned vd va vb (!(s.reg vb).sign) s

/-- SCALE_TO vd (R187): to the target scale ARG. An increase pads low zero bytes; a decrease drops low bytes, down to
none, and is lossy if it drops a nonzero one; SIGN is kept. -/
def execScaleTo (vd : RegIdx) (s : State) : Result :=
  withRegs [vd] s <|
  withSources [vd] s <|
  let r := s.reg vd
  let t := s.argNat
  let c := r.scale.toNat
  if t = c then complete false s
  else if c < t then
    withCapacity (r.len + (t - c)) s <|
    complete false (commit vd (r.len + (t - c)) r.sign s.arg (List.replicate (t - c) 0#8 ++ r.bytes) s)
  else
    let d := c - t
    complete ((r.bytes.take d).any (fun b => b != 0#8)) (commit vd (r.len - d) r.sign s.arg (r.bytes.drop d) s)

end Sys2Proof.Machine
end

