-- ==== Sys2Proof/Machine/Buffer.lean ====
section
/-! DEFINITION. Buffer management and copy (40_buffer.md): CREATE_BUFFER, GROW_BUFFER, RELEASE, COPY. -/

namespace Sys2Proof.Machine

/-- CREATE_BUFFER vd (R100): ARG zero bytes; SIGN and SCALE are kept (D41). -/
def execCreateBuffer (vd : RegIdx) (s : State) : Result :=
  withRegs [vd] s <|
  withCapacity s.argNat s <|
  complete false (commit vd s.argNat (s.reg vd).sign (s.reg vd).scale [] s)

/-- GROW_BUFFER vd (R101): as CREATE_BUFFER on an empty register; no change when ARG is no larger than LEN; else the
existing bytes stay low and zeros are added above them. -/
def execGrowBuffer (vd : RegIdx) (s : State) : Result :=
  withRegs [vd] s <|
  let r := s.reg vd
  if r.alloc = false then
    withCapacity s.argNat s <| complete false (commit vd s.argNat false 0#32 [] s)
  else if s.argNat ≤ r.len then complete false s
  else withCapacity s.argNat s <| complete false (commit vd s.argNat r.sign r.scale r.bytes s)

/-- RELEASE vd (R102): back to the empty register; releasing an empty one succeeds (D32). -/
def execRelease (vd : RegIdx) (s : State) : Result :=
  withRegs [vd] s <|
  complete false (s.setReg vd (ValueReg.empty s.cfg.maxLen))

/-- COPY vd, va (R103): a deep copy; vd = va changes nothing, even on an empty register (D33). -/
def execCopy (vd va : RegIdx) (s : State) : Result :=
  withRegs [vd, va] s <|
  if vd = va then complete false s
  else
    withSources [va] s <|
    let r := s.reg va
    complete false (commit vd r.len r.sign r.scale r.mag s)

end Sys2Proof.Machine
end

