-- ==== Sys2Proof/Machine/Decoders.lean ====
section
/-! DEFINITION. The format decoders (43_format_decoders.md): DEC_FFP32, DEC_EXT80, DEC_QUAD128, LOAD_RAW. The big-endian
formats present their mantissa bytes reversed, in increasing significance order (R161, C4). -/

namespace Sys2Proof.Machine

/-- The 15-bit exponent field of the big-endian formats: the low 7 bits of DIN[0], then DIN[1] (R163, R164). -/
def State.exponent15 (s : State) : Word := (low7 (s.dinByte 0) <<< 8) ||| (s.dinByte 1).setWidth 32

/-- DEC_FFP32 vd (R162): sign and exponent in the last byte, three mantissa bytes reversed, no bit stripped. -/
def execDecFfp32 (vd : RegIdx) (s : State) : Result :=
  withRegs [vd] s <|
  withSpan 4 s <|
  complete false (commit vd 4 (topBit (s.dinByte 3)) (low7 (s.dinByte 3)) (s.dinDown 2 3 ++ [0#8]) s)

/-- DEC_EXT80 vd (R163): LEN is P_EXT_LEN; the extractor's width is P_EXT_MANT_W. -/
def execDecExt80 (vd : RegIdx) (s : State) : Result :=
  withRegs [vd] s <|
  withSpan 10 s <|
  let m := extractMantissa (s.dinDown 9 8) s.cfg.extMantW
  complete false (commit vd s.cfg.extLen (topBit (s.dinByte 0)) s.exponent15 (m ++ [0#8, 0#8]) s)

/-- DEC_QUAD128 vd (R164). -/
def execDecQuad128 (vd : RegIdx) (s : State) : Result :=
  withRegs [vd] s <|
  withSpan 16 s <|
  let m := extractMantissa (s.dinDown 15 14) 112
  complete false (commit vd 16 (topBit (s.dinByte 0)) s.exponent15 (m ++ [0#8, 0#8]) s)

/-- LOAD_RAW vd, S (R165): DIN's first DIN_LEN bytes verbatim, the sign from the command, the scale from ARG. -/
def execLoadRaw (vd : RegIdx) (neg : Bool) (s : State) : Result :=
  withRegs [vd] s <|
  complete false (commit vd s.dinLen neg s.arg (s.dinUp 0 s.dinLen) s)

end Sys2Proof.Machine
end

