-- ==== Sys2Proof/Machine/Mantissa.lean ====
section
/-! DEFINITION. The mantissa extractor as a command (41_mantissa.md): DEC_MANT. -/

namespace Sys2Proof.Machine

/-- DEC_MANT vd (R126): ExtractMantissa of width ARG on DIN's first `ceil(ARG/8)` bytes. BAD_WIDTH is checked before
INVALID_INPUT. -/
def execDecMant (vd : RegIdx) (s : State) : Result :=
  withRegs [vd] s <|
  let w := s.argNat
  let n := fieldBytes w
  if legalWidths.contains w = false then raiseError .badWidth s
  else withSpan n s <| complete false (commit vd n false 0#32 (extractMantissa (s.dinUp 0 n) w) s)

end Sys2Proof.Machine
end

