-- ==== Sys2Proof/Machine/Narrow.lean ====
section
/-! DEFINITION. The narrowing conversions (44_arithmetic.md, R188, R189): TO_U64 and TO_F64. They write RES and STATUS
and no value register. -/

namespace Sys2Proof.Machine

/-- TO_U64's result for a magnitude of bytes `m`, a byte scale `c` and a sign (R188), and its loss bit. The integer part
is what is left after dropping the `c` low bytes; the fraction is nonzero exactly if a dropped byte is (log 10). -/
def narrowU64 (neg : Bool) (m : List Byte) (c : Nat) : DWord × Bool :=
  let t := leNat (m.drop c)
  let r := if neg then (2 ^ 64 - t % 2 ^ 64) % 2 ^ 64 else t % 2 ^ 64
  (BitVec.ofNat 64 r, (m.take c).any (fun b => b != 0#8) || decide (2 ^ 64 ≤ t) || (neg && t != 0))

/-- `floor(m * 2^x)` (log 10). -/
def scaleFloor (m : Nat) : Int → Nat
  | .ofNat n => m * 2 ^ n
  | .negSucc n => m >>> (n + 1)

/-- `m * 2^x` is an integer. A power of 2 above `m` divides only 0 (log 10). -/
def scaleExact (m : Nat) : Int → Bool
  | .ofNat _ => true
  | .negSucc n => if n + 1 ≤ m.log2 then m % 2 ^ (n + 1) == 0 else m == 0

/-- TO_F64's result for `q = m / 256^c` and a sign (R189), rounding toward zero, and its loss bit. As `q = m * 2^(-8c)`,
`floor(log2 q)` is `log2 m - 8c`, and `q * 2^x` is `m * 2^(x - 8c)`. -/
def narrowF64 (neg : Bool) (m c : Nat) : DWord × Bool :=
  let sg := if neg then 2 ^ 63 else 0
  if m = 0 then (BitVec.ofNat 64 sg, false)
  else
    let e : Int := (m.log2 : Int) - 8 * c
    if -1022 ≤ e then
      let x : Int := 52 - e - 8 * c
      (BitVec.ofNat 64 (sg + (e + 1023).toNat * 2 ^ 52 + (scaleFloor m x - 2 ^ 52)), !scaleExact m x)
    else
      let x : Int := 1074 - 8 * c
      (BitVec.ofNat 64 (sg + scaleFloor m x), !scaleExact m x)

/-- TO_U64 va (R188). -/
def execToU64 (va : RegIdx) (s : State) : Result :=
  withRegs [va] s <|
  withSources [va] s <|
  let r := s.reg va
  let out := narrowU64 r.sign r.bytes r.scale.toNat
  complete out.2 { s with res := out.1 }

/-- TO_F64 va (R189). -/
def execToF64 (va : RegIdx) (s : State) : Result :=
  withRegs [va] s <|
  withSources [va] s <|
  let r := s.reg va
  let out := narrowF64 r.sign r.magNat r.scale.toNat
  complete out.2 { s with res := out.1 }

end Sys2Proof.Machine
end

