-- ==== Sys2Proof/Machine/Native.lean ====
section
/-! DEFINITION. The native-type constructors (42_native.md): FROM_S64, FROM_U64, FROM_F64, FROM_F32. The native bytes
are little-endian in DIN (R140). -/

namespace Sys2Proof.Machine

/-- The bitwise complement of each byte with a carry rippling from byte 0 (R141, C11): with `c = 1`, the magnitude of
a negative two's-complement integer. The carry out of the last byte is discarded. -/
def complementWithCarry : List Byte → Nat → List Byte
  | [], _ => []
  | x :: xs, c =>
    let t := (~~~x).toNat + c
    BitVec.ofNat 8 t :: complementWithCarry xs (t / 256)

/-- FROM_S64 vd (R141). -/
def execFromS64 (vd : RegIdx) (s : State) : Result :=
  withRegs [vd] s <|
  withSpan 8 s <|
  let x := s.dinUp 0 8
  let sg := topBit (s.dinByte 7)
  complete false (commit vd 8 sg 0#32 (if sg then complementWithCarry x 1 else x) s)

/-- FROM_U64 vd (R142). -/
def execFromU64 (vd : RegIdx) (s : State) : Result :=
  withRegs [vd] s <|
  withSpan 8 s <|
  complete false (commit vd 8 false 0#32 (s.dinUp 0 8) s)

/-- FROM_F64 vd (R143): the 11 exponent bits raw in SCALE, the magnitude by the extractor; no pattern is special. -/
def execFromF64 (vd : RegIdx) (s : State) : Result :=
  withRegs [vd] s <|
  withSpan 8 s <|
  let sc := (low7 (s.dinByte 7) <<< 4) ||| (s.dinByte 6 >>> 4).setWidth 32
  complete false (commit vd 8 (topBit (s.dinByte 7)) sc (extractMantissa (s.dinUp 0 7) 52 ++ [0#8]) s)

/-- FROM_F32 vd (R144): the 8 exponent bits raw in SCALE, the magnitude by the extractor. -/
def execFromF32 (vd : RegIdx) (s : State) : Result :=
  withRegs [vd] s <|
  withSpan 4 s <|
  let sc := (low7 (s.dinByte 3) <<< 1) ||| (s.dinByte 2 >>> 7).setWidth 32
  complete false (commit vd 4 (topBit (s.dinByte 3)) sc (extractMantissa (s.dinUp 0 3) 23 ++ [0#8]) s)

end Sys2Proof.Machine
end

