-- ==== Sys2Proof/Machine/Dispatch.lean ====
section
/-! DEFINITION. One arm per command: the execution of a decoded command word (R82, last line). -/

namespace Sys2Proof.Machine

def exec (i : Instr) (s : State) : Host.Outcome State Fault Refusal :=
  match i with
  | .createBuffer vd => Sys2Proof.Machine.execCreateBuffer vd s
  | .growBuffer vd => Sys2Proof.Machine.execGrowBuffer vd s
  | .release vd => Sys2Proof.Machine.execRelease vd s
  | .copy vd va => Sys2Proof.Machine.execCopy vd va s
  | .fromS64 vd => Sys2Proof.Machine.execFromS64 vd s
  | .fromU64 vd => Sys2Proof.Machine.execFromU64 vd s
  | .fromF64 vd => Sys2Proof.Machine.execFromF64 vd s
  | .fromF32 vd => Sys2Proof.Machine.execFromF32 vd s
  | .decMant vd => Sys2Proof.Machine.execDecMant vd s
  | .decFfp32 vd => Sys2Proof.Machine.execDecFfp32 vd s
  | .decExt80 vd => Sys2Proof.Machine.execDecExt80 vd s
  | .decQuad128 vd => Sys2Proof.Machine.execDecQuad128 vd s
  | .loadRaw vd neg => Sys2Proof.Machine.execLoadRaw vd neg s
  | .add vd va vb => Sys2Proof.Machine.execAdd vd va vb s
  | .sub vd va vb => Sys2Proof.Machine.execSub vd va vb s
  | .scaleTo vd => Sys2Proof.Machine.execScaleTo vd s
  | .toU64 va => Sys2Proof.Machine.execToU64 va s
  | .toF64 va => Sys2Proof.Machine.execToF64 va s

end Sys2Proof.Machine
end

