-- ==== Sys2Proof/Machine/Window.lean ====
section
/-! DEFINITION. The register window (20_memory.md): which register an address names (R53), what each register reads
(R34 to R36, R53, R56 to R58), and the writes that run no command (R33, R55 to R57). -/

namespace Sys2Proof.Machine

/-- A register of the window (R53). -/
inductive WindowReg where
  | id | cap | cmd | status | arg | dinLen | resLo | resHi
  /-- DIN word k -/
  | din (k : Nat)
  /-- VCTL(i) -/
  | vctl (i : Nat)
  /-- VSCALE(i) -/
  | vscale (i : Nat)
  /-- MAG word (i, k) -/
  | mag (i k : Nat)
deriving DecidableEq, Repr

/-- The one legal access: 4 bytes at a 4-aligned address (R52). -/
def legalAccess (addr : Addr) (size : Nat) : Bool := size == 4 && addr.toNat % 4 == 0

/-- The register at byte offset `off` of value register `i`'s 0x80-byte window (R53). -/
def valueRegAt (i off : Nat) : Option WindowReg :=
  if off = 0x00 then some (.vctl i)
  else if off = 0x04 then some (.vscale i)
  else if 0x40 ≤ off then some (.mag i ((off - 0x40) / 4))
  else none

/-- The register at a 4-aligned address, if the address is mapped (R53). -/
def regAt (p : Params) (addr : Addr) : Option WindowReg :=
  let a := addr.toNat
  if a = 0x000 then some .id
  else if a = 0x004 then some .cap
  else if a = 0x008 then some .cmd
  else if a = 0x00C then some .status
  else if a = 0x010 then some .arg
  else if a = 0x014 then some .dinLen
  else if a = 0x018 then some .resLo
  else if a = 0x01C then some .resHi
  else if 0x100 ≤ a ∧ a < 0x140 then some (.din ((a - 0x100) / 4))
  else if 0x400 ≤ a ∧ (a - 0x400) / 0x80 < p.nv then valueRegAt ((a - 0x400) / 0x80) ((a - 0x400) % 0x80)
  else none

/-- The parameters as CAP reports them (R36). -/
def capWord (p : Params) : Word :=
  BitVec.ofNat 32 p.maxLen ||| (BitVec.ofNat 32 p.nv <<< 8) ||| (BitVec.ofNat 32 p.extLen <<< 16) |||
    bitAt 20 (p.extMantW == 64)

/-- VCTL of a value register: bit 0 ALLOC, bit 1 SIGN, bits 15:8 LEN (R53). -/
def ValueReg.ctlWord (r : ValueReg) : Word :=
  bitAt 0 r.alloc ||| bitAt 1 r.sign ||| (BitVec.ofNat 32 r.len <<< 8)

/-- Cell `j` of a byte array of `n` cells; a cell that does not exist reads 0 (R56, R58). -/
def cellAt (n : Nat) (cells : List Byte) (j : Nat) : Byte := if j < n then cells.getD j 0#8 else 0#8

/-- Word `k` of a byte array, four cells packed little-endian (R56, R58). -/
def packWord (n : Nat) (cells : List Byte) (k : Nat) : Word :=
  (cellAt n cells (4 * k)).setWidth 32 ||| ((cellAt n cells (4 * k + 1)).setWidth 32 <<< 8) |||
    ((cellAt n cells (4 * k + 2)).setWidth 32 <<< 16) ||| ((cellAt n cells (4 * k + 3)).setWidth 32 <<< 24)

/-- Write one cell of a byte array of `n` cells; a cell that does not exist ignores the write (R56). -/
def setCell (n j : Nat) (b : Byte) (cells : List Byte) : List Byte := if j < n then cells.set j b else cells

/-- Write word `k` of a byte array, lane by lane (R56). -/
def unpackWord (n k : Nat) (w : Word) (cells : List Byte) : List Byte :=
  setCell n (4 * k + 3) (w.extractLsb' 24 8) <| setCell n (4 * k + 2) (w.extractLsb' 16 8) <|
    setCell n (4 * k + 1) (w.extractLsb' 8 8) <| setCell n (4 * k) (w.extractLsb' 0 8) cells

/-- Value register `i` of the window. -/
def State.regNat (s : State) (i : Nat) : ValueReg := s.v.getD i (ValueReg.empty s.cfg.maxLen)

/-- What a legal read of a mapped register returns (R53). A read changes no register (R60). -/
def readReg (s : State) : WindowReg → Word
  | .id => Config.idValue
  | .cap => capWord s.cfg
  | .cmd => 0#32
  | .status => s.status.word
  | .arg => s.arg
  | .dinLen => BitVec.ofNat 32 s.dinLen
  | .resLo => s.res.extractLsb' 0 32
  | .resHi => s.res.extractLsb' 32 32
  | .din k => packWord s.cfg.maxLen s.din k
  | .vctl i => (s.regNat i).ctlWord
  | .vscale i => (s.regNat i).scale
  | .mag i k => packWord s.cfg.maxLen (s.regNat i).mag k

/-- An illegal host access: BUS_ERR and nothing else (R226). -/
def busError (s : State) : State := { s with status := s.status.afterBusError }

/-- Return a word to the host (R50). -/
def deliver (d : Word) (s : State) : State := { s with returned := s.returned ++ [d] }

/-- A host read: an illegal or unmapped one returns 0 and sets BUS_ERR (R52, R54). -/
def busRead (addr : Addr) (size : Nat) (s : State) : State :=
  if legalAccess addr size then
    match regAt s.cfg addr with
    | some r => deliver (readReg s r) s
    | none => deliver 0#32 (busError s)
  else deliver 0#32 (busError s)

/-- A legal write to a mapped register other than CMD: STATUS clears flags (R33); ARG and DIN words store (R29, R56);
DIN_LEN stores `min(w, P_MAXLEN)` (R57); a read-only register only sets BUS_ERR (R55). -/
def writeReg (d : Word) (s : State) : WindowReg → State
  | .status => { s with status := s.status.afterWrite d }
  | .arg => { s with arg := d }
  | .dinLen => { s with dinLen := min d.toNat s.cfg.maxLen }
  | .din k => { s with din := unpackWord s.cfg.maxLen k d s.din }
  | .cmd => s
  | .id | .cap | .resLo | .resHi | .vctl _ | .vscale _ | .mag _ _ => busError s

end Sys2Proof.Machine
end

