-- ==== Sys2Proof/Machine/Bus.lean ====
section
/-! DEFINITION. One host event taken whole (R60, R62): a bus read, a bus write, which at CMD executes a command, or
reset. -/

namespace Sys2Proof.Machine

/-- The error code that reports a rejected word (R82, R85). -/
def rejectCode : Reject → ErrCode
  | .unknownOpcode => .illegalCmd
  | .reservedBits => .illegalCmd
  | .unusedField => .illegalCmd

/-- Execute command word `w` (R34, R82): a rejected word raises its error, any other runs its command. -/
def runCommand (w : Word) (s : State) : Result :=
  match decode w with
  | .error e => raiseError (rejectCode e) s
  | .ok i => exec i s

/-- A host write: illegal and unmapped ones set BUS_ERR and run nothing (R52, R54). -/
def busWrite (addr : Addr) (size : Nat) (d : Word) (s : State) : Result :=
  if legalAccess addr size then
    match regAt s.cfg addr with
    | some .cmd => runCommand d s
    | some r => .next (writeReg d s r)
    | none => .next (busError s)
  else .next (busError s)

/-- Assert reset (R240, R243): every piece of architectural state at its reset value, whatever it was. The build
parameters are constants, and what the host still sends and has already received is not the block's state (log 3). -/
def assertReset (s : State) : State :=
  { State.resetWith s.cfg with pending := s.pending, returned := s.returned }

/-- The effect of one host event. -/
def hostEvent (e : HostEvent) (s : State) : Result :=
  match e with
  | .read addr size => .next (busRead addr size s)
  | .write addr size d => busWrite addr size d s
  | .reset => .next (assertReset s)

/-- Take the oldest pending host event; with none pending every register keeps its value (R233, R247, log 2). -/
def serveHost (s : State) : Result :=
  match s.pending with
  | [] => .next s
  | e :: rest => hostEvent e { s with pending := rest }

/-- The address of CMD (R53). -/
def cmdAddr : Addr := 0x008#12

/-- `s` with a write of command word `w` to CMD as the host's next access (R34). -/
def offerCommand (w : Word) (s : State) : State := { s with pending := .write cmdAddr 4 w :: s.pending }

end Sys2Proof.Machine
end

