-- ==== Sys2Proof/Machine/Step.lean ====
section
/-! DEFINITION. One step of the machine: the block serves the host's next access (R20, R62). -/

namespace Sys2Proof.Machine

/-- One step (log 2). -/
def step (s : State) : Host.Outcome State Fault Refusal := serveHost s

/-- `s` with the command whose low `nbits` bits are `w` as the data of the host's next CMD write. The block fetches no
instruction (R64): this is how a command reaches it (log 4). -/
def State.withFetchWord (s : State) (nbits w : Nat) : State := offerCommand (BitVec.ofNat 32 (w % 2 ^ nbits)) s

end Sys2Proof.Machine
end

