-- ==== Sys2Proof/WellFormed.lean ====
section
/-! DEFINITION. Which commands a block with given parameters has: every value register a command names must exist
(R21, and the BAD_REG check of R82). Every other check of R82 is on the word, and the decoder makes it. -/

namespace Sys2Proof

/-- The value registers that a command's used fields name, in the order VD, VA, VB of R82. -/
def Instr.regs : Instr → List RegIdx
  | .createBuffer vd => [vd]
  | .growBuffer vd => [vd]
  | .release vd => [vd]
  | .copy vd va => [vd, va]
  | .fromS64 vd => [vd]
  | .fromU64 vd => [vd]
  | .fromF64 vd => [vd]
  | .fromF32 vd => [vd]
  | .decMant vd => [vd]
  | .decFfp32 vd => [vd]
  | .decExt80 vd => [vd]
  | .decQuad128 vd => [vd]
  | .loadRaw vd _ => [vd]
  | .add vd va vb => [vd, va, vb]
  | .sub vd va vb => [vd, va, vb]
  | .scaleTo vd => [vd]
  | .toU64 va => [va]
  | .toF64 va => [va]

/-- Every value register the command names exists: its index is below P_NV (R82). -/
def Instr.wellFormed (p : Params) (i : Instr) : Bool :=
  i.regs.all fun r => r.toNat < p.nv

end Sys2Proof
end

