-- ==== Sys2Proof/Safety.lean ====
section
/-! DEFINITION. What a state of the machine must satisfy (the invariants of 10_state.md), and the terms in which claims
speak of a command's effect: what a completed and what a failed command leave, the value a register denotes, and which
error a command must report. -/

namespace Sys2Proof.Machine

/-- A value register of a block with P_MAXLEN = `maxLen`: it has its cells, LEN is in range (R21), every MAG byte from
LEN on is 0 (R23), and an unallocated register is the empty one (R22). -/
abbrev ValueReg.Wf (maxLen : Nat) (r : ValueReg) : Prop :=
  r.mag.length = maxLen ∧ r.len ≤ maxLen ∧ (∀ b ∈ r.mag.drop r.len, b = 0#8) ∧
    (r.alloc = false → r = ValueReg.empty maxLen)

/-- A state of a block: legal parameters (R6), P_NV well-formed value registers (R21 to R23), P_MAXLEN cells of DIN and
DIN_LEN in range (R28). -/
abbrev State.Wf (s : State) : Prop :=
  s.cfg.Legal ∧ s.v.length = s.cfg.nv ∧ (∀ r ∈ s.v, r.Wf s.cfg.maxLen) ∧ s.din.length = s.cfg.maxLen ∧
    s.dinLen ≤ s.cfg.maxLen

/-- A run is safe if every state of it is well formed and no step of it stops (R220, R23): the machine takes `k` steps
from `s`. -/
def SafeRun : Nat → State → Prop
  | 0, s => s.Wf
  | k + 1, s => s.Wf ∧ ∃ t, step s = .next t ∧ SafeRun k t

/-- An allocated register of LEN `n` whose magnitude denotes the integer `m`: MAG is `m`'s little-endian form, zeros
above it (R8, R9, R23). It says something for `m < 256^n`. -/
def ValueReg.holding (maxLen n : Nat) (sign : Bool) (scale : Word) (m : Nat) : ValueReg :=
  { alloc := true, len := n, sign := sign, scale := scale, mag := leBytes maxLen m }

/-- `s` after a command completed with loss bit `lossy`, before its results are counted (R223): STATUS alone. -/
def State.completed (s : State) (lossy : Bool) : State :=
  { s with status := { s.status with err := .ok, lossy := lossy, stickyLossy := s.status.stickyLossy || lossy } }

/-- `s` after a completed command that wrote V[vd] := r and nothing else but STATUS (R223). -/
def State.wrote (s : State) (vd : RegIdx) (r : ValueReg) (lossy : Bool) : State :=
  { s.completed lossy with v := s.v.set vd.toNat r }

/-- `s` after a command that failed with code `e` (R222): ERR, LOSSY and STICKY_ERR alone. -/
def State.failed (s : State) (e : ErrCode) : State :=
  { s with status := { s.status with err := e, lossy := false, stickyErr := true } }

/-- The rational value a register denotes under reading (a) of R24. -/
def ValueReg.value (r : ValueReg) : ℚ :=
  (if r.sign then -1 else 1) * (r.magNat : ℚ) / 256 ^ r.scale.toNat

/-- The signed integer of a register's magnitude raised to scale `sc`, with `neg` as its sign (R180, R184). -/
def ValueReg.scaledInt (r : ValueReg) (neg : Bool) (sc : Nat) : Int :=
  (if neg then -1 else 1) * ((r.magNat * 256 ^ (sc - r.scale.toNat) : Nat) : Int)

/-- The bytes a sum of two registers needs: the longer aligned length and one more (R184). -/
def sumRoom (a b : ValueReg) : Nat :=
  let sc := max a.scale.toNat b.scale.toNat
  max (a.len + (sc - a.scale.toNat)) (b.len + (sc - b.scale.toNat)) + 1

/-- Row `(mask, value)` of the opcode map selects exactly the words that decode to the commands `p` holds of (R82,
R84). -/
abbrev SelectedBy (mask value : Word) (p : Instr → Prop) : Prop :=
  ∀ w : Word, (∃ i, decode w = .ok i ∧ p i) ↔ w &&& mask = value

/-- The opcode map as R84 prints it: each command with its mask and its match. -/
def opcodeMap : List (Opcode × Word × Word) :=
  [(.createBuffer, 0xFFFFF0FF#32, 0x00000001#32), (.growBuffer, 0xFFFFF0FF#32, 0x00000002#32),
    (.release, 0xFFFFF0FF#32, 0x00000003#32), (.copy, 0xFFFF00FF#32, 0x00000004#32),
    (.fromS64, 0xFFFFF0FF#32, 0x00000010#32), (.fromU64, 0xFFFFF0FF#32, 0x00000011#32),
    (.fromF64, 0xFFFFF0FF#32, 0x00000012#32), (.fromF32, 0xFFFFF0FF#32, 0x00000013#32),
    (.decMant, 0xFFFFF0FF#32, 0x00000020#32), (.decFfp32, 0xFFFFF0FF#32, 0x00000021#32),
    (.decExt80, 0xFFFFF0FF#32, 0x00000022#32), (.decQuad128, 0xFFFFF0FF#32, 0x00000023#32),
    (.loadRaw, 0xFFEFF0FF#32, 0x00000024#32), (.add, 0xFFF000FF#32, 0x00000030#32),
    (.sub, 0xFFF000FF#32, 0x00000031#32), (.scaleTo, 0xFFFFF0FF#32, 0x00000038#32),
    (.toU64, 0xFFFF0FFF#32, 0x00000040#32), (.toF64, 0xFFFF0FFF#32, 0x00000041#32)]

/-- The 4-aligned byte address `a` is unmapped: the ranges that R53 lists. -/
def Unmapped (p : Params) (a : Nat) : Prop :=
  a % 4 = 0 ∧
    ((0x020 ≤ a ∧ a ≤ 0x0FC) ∨ (0x140 ≤ a ∧ a ≤ 0x3FC) ∨
      (∃ i < p.nv, 0x408 + 0x80 * i ≤ a ∧ a ≤ 0x43C + 0x80 * i) ∨ (0x400 + 0x80 * p.nv ≤ a ∧ a ≤ 0xFFC))

/-- The byte address `a` is that of a read-only register: ID, CAP, RES_LO, RES_HI, VCTL, VSCALE or a MAG word (R53,
R55). -/
def ReadOnlyAt (p : Params) (a : Nat) : Prop :=
  a = 0x000 ∨ a = 0x004 ∨ a = 0x018 ∨ a = 0x01C ∨
    ∃ i < p.nv, a = 0x400 + 0x80 * i ∨ a = 0x404 + 0x80 * i ∨ ∃ k < 16, a = 0x440 + 0x80 * i + 4 * k

/-- The value register a command writes, if it writes one (R27). -/
def destOf : Instr → Option RegIdx
  | .createBuffer vd | .growBuffer vd | .release vd | .copy vd _ | .fromS64 vd | .fromU64 vd | .fromF64 vd
  | .fromF32 vd | .decMant vd | .decFfp32 vd | .decExt80 vd | .decQuad128 vd | .loadRaw vd _ | .add vd _ _
  | .sub vd _ _ | .scaleTo vd => some vd
  | .toU64 _ | .toF64 _ => none

/-- The source registers that must not be empty (R22, R221); a self-copy reads none (R103). -/
def sourcesOf : Instr → List RegIdx
  | .copy vd va => if vd = va then [] else [va]
  | .add _ va vb | .sub _ va vb => [va, vb]
  | .scaleTo vd => [vd]
  | .toU64 va | .toF64 va => [va]
  | .createBuffer _ | .growBuffer _ | .release _ | .fromS64 _ | .fromU64 _ | .fromF64 _ | .fromF32 _ | .decMant _
  | .decFfp32 _ | .decExt80 _ | .decQuad128 _ | .loadRaw _ _ => []

/-- The bytes of DIN a command requires DIN_LEN to cover (R126, R141 to R144, R160). -/
def spanNeeded (i : Instr) (s : State) : Nat :=
  match i with
  | .fromS64 _ | .fromU64 _ | .fromF64 _ => 8
  | .fromF32 _ | .decFfp32 _ => 4
  | .decExt80 _ => 10
  | .decQuad128 _ => 16
  | .decMant _ => (s.arg.toNat + 7) / 8
  | .createBuffer _ | .growBuffer _ | .release _ | .copy _ _ | .loadRaw _ _ | .add _ _ _ | .sub _ _ _ | .scaleTo _
  | .toU64 _ | .toF64 _ => 0

/-- The bytes of magnitude a command needs room for, where it checks (R100, R101, R184, R187). -/
def roomNeeded (i : Instr) (s : State) : Nat :=
  match i with
  | .createBuffer _ => s.arg.toNat
  | .growBuffer vd => if (s.reg vd).alloc ∧ s.arg.toNat ≤ (s.reg vd).len then 0 else s.arg.toNat
  | .add _ va vb | .sub _ va vb => sumRoom (s.reg va) (s.reg vb)
  | .scaleTo vd =>
    if (s.reg vd).scale.toNat < s.arg.toNat then (s.reg vd).len + (s.arg.toNat - (s.reg vd).scale.toNat) else 0
  | .release _ | .copy _ _ | .fromS64 _ | .fromU64 _ | .fromF64 _ | .fromF32 _ | .decMant _ | .decFfp32 _
  | .decExt80 _ | .decQuad128 _ | .loadRaw _ _ | .toU64 _ | .toF64 _ => 0

/-- The error conditions of R221, for a command that was decoded. -/
def ErrorApplies (i : Instr) (s : State) : ErrCode → Prop
  | .ok => False
  | .illegalCmd => False
  | .badReg => ∃ r ∈ i.regs, s.cfg.nv ≤ r.toNat
  | .badWidth => (∃ vd, i = .decMant vd) ∧ s.arg.toNat ∉ [23, 52, 63, 64, 112]
  | .invalidInput => s.dinLen < spanNeeded i s
  | .emptyOperand => ∃ r ∈ sourcesOf i, (s.reg r).alloc = false
  | .capacity => s.cfg.maxLen < roomNeeded i s

/-- The error conditions of R221, for a command word: ILLEGAL_CMD where no row of the opcode map selects it, any other
where it decodes to a command that meets the condition. -/
def WordErrorApplies (w : Word) (s : State) : ErrCode → Prop
  | .illegalCmd => ∀ row ∈ opcodeMap, w &&& row.2.1 ≠ row.2.2
  | e => ∃ i, decode w = .ok i ∧ ErrorApplies i s e

end Sys2Proof.Machine
end

