-- ==== Sys2Proof/Certificates/Slice0/Obligations.lean ====
section
/-! DEFINITION. The statements for the provers. Each docstring names the rule it formalises. A command's result is stated
as the whole next state: `State.wrote` and `State.completed` (Safety.lean) change the named register and STATUS and
nothing else, so every such equation is also the command's frame; `ValueReg.holding` gives LEN, SIGN, SCALE and every MAG
byte. -/

open Sys2Proof Sys2Proof.Machine

/-! ### Encoding and decoding -/

/-- Words written out from R80 and R84 decode to the commands they stand for, and the all-zero word to none (R85). -/
def Obligations.SpecWordsDecodeAsWritten : Prop :=
  decode 0x00000301#32 = .ok (.createBuffer 3) ∧ decode 0x00001104#32 = .ok (.copy 1 1) ∧
    decode 0x00000110#32 = .ok (.fromS64 1) ∧ decode 0x00000720#32 = .ok (.decMant 7) ∧
    decode 0x00100124#32 = .ok (.loadRaw 1 true) ∧ decode 0x00010331#32 = .ok (.sub 3 0 1) ∧
    decode 0x00000238#32 = .ok (.scaleTo 2) ∧ decode 0x00003040#32 = .ok (.toU64 3) ∧
    decode 0x00000000#32 = .error .unknownOpcode ∧ decode 0x00200001#32 = .error .reservedBits ∧
    decode 0x00000540#32 = .error .unusedField

/-- Decoding a command's word gives the command back, for every command and every operand (R82, R84). -/
def Obligations.DecodeInvertsEncode : Prop :=
  ∀ i : Instr, decode (encode i) = .ok i

/-- A word that decodes is the word of its command: each word has one meaning, and no bit of it is dropped (R82). -/
def Obligations.EncodeInvertsDecode : Prop :=
  ∀ (w : Word) (i : Instr), decode w = .ok i → encode i = w

/-- A word selects a command exactly when it meets the command's row of the opcode map (R82's equivalent statement,
over the rows that R84 prints). -/
def Obligations.OpcodeMapRowsSelectCommands : Prop :=
  ∀ row ∈ opcodeMap, SelectedBy row.2.1 row.2.2 fun i => i.opcode = row.1

/-! ### The step: commands, idling and reset -/

/-- A step whose next host access writes a word that decodes to CMD is that command's execution (R34, R82, R87); the step
adds only that the access is taken from the queue. -/
def Obligations.StepRunsTheDecodedCommand : Prop :=
  ∀ (s : State) (w : Word) (i : Instr) (rest : List HostEvent),
    s.pending = .write 0x008#12 4 w :: rest → decode w = .ok i → step s = exec i { s with pending := rest }

/-- A word that no row of the opcode map selects reports ILLEGAL_CMD and changes nothing but STATUS (R85, R222). -/
def Obligations.IllegalCommandWordChangesOnlyStatus : Prop :=
  ∀ (s : State) (w : Word) (rest : List HostEvent),
    s.pending = .write 0x008#12 4 w :: rest → (∀ row ∈ opcodeMap, w &&& row.2.1 ≠ row.2.2) →
      step s = .next (State.failed { s with pending := rest } .illegalCmd)

/-- A command that names a register at or past P_NV reports BAD_REG, whatever else is wrong with it (R82, R225). -/
def Obligations.MissingRegisterReportsBadReg : Prop :=
  ∀ (i : Instr) (s : State), (∃ r ∈ i.regs, s.cfg.nv ≤ r.toNat) → exec i s = .next (s.failed .badReg)

/-- With no host access pending, a step changes nothing. The rule is R233 ("Every register keeps its value until a host
access, a command or reset changes it"); that such a step exists at all is the model's choice (log 2). -/
def Obligations.StepWithoutHostAccessIdles : Prop :=
  ∀ s : State, s.pending = [] → step s = .next s

/-- Reset puts every piece of architectural state at its reset value, whatever the state was; ID and CAP are constant
(R240). The build parameters, the accesses still pending and the data already returned are the model's own (logs 1, 2,
3). -/
def Obligations.ResetRestoresEveryRegister : Prop :=
  ∀ (s : State) (rest : List HostEvent), s.pending = .reset :: rest →
    ∃ t, step s = .next t ∧
      (t.v.length = s.cfg.nv ∧ ∀ r ∈ t.v, r.alloc = false ∧ r.len = 0 ∧ r.sign = false ∧ r.scale = 0#32 ∧
        r.mag = List.replicate s.cfg.maxLen 0#8) ∧
      t.din = List.replicate s.cfg.maxLen 0#8 ∧ t.dinLen = 0 ∧ t.arg = 0#32 ∧ t.res = 0#64 ∧
      t.status = { err := .ok, lossy := false, stickyErr := false, stickyLossy := false, busErr := false } ∧
      t.carry = 0#9 ∧ readReg t .cmd = 0#32 ∧ readReg t .id = 0x4D465044#32 ∧ readReg t .cap = readReg s .cap ∧
      t.cfg = s.cfg ∧ t.pending = rest ∧ t.returned = s.returned

/-- The model's state after reset is the well-formed reset state of a block with the default parameters (R6, R240; the
choice of the defaults is log 1). -/
def Obligations.ResetStateIsWellFormed : Prop :=
  State.reset.Wf ∧ State.reset.cfg = { nv := 4, maxLen := 32, extLen := 10, extMantW := 63 } ∧
    State.reset.v = List.replicate 4 (ValueReg.empty 32) ∧ State.reset.pending = []

/-- Every step keeps a state well formed: R21's widths, R22's empty registers, R23's zeros from LEN on, R28's range of
DIN_LEN. -/
def Obligations.StepKeepsStatesWellFormed : Prop :=
  ∀ s t : State, s.Wf → step s = .next t → t.Wf

/-- No state stops the machine: whatever STATUS holds and whatever the host does, a step answers a next state. The spec
says it case by case: a command error never stops the sequencer (R220), an illegal or unmapped access and a write to a
read-only register only set BUS_ERR (R52, R54, R55, R226), reset leaves the block ready (R240). That nothing else stops
is the model's inference (log 8, DEDUCED); that an empty queue has a step at all is its choice (log 2, DESIGN CHOICE). -/
def Obligations.EveryStepAnswersANextState : Prop :=
  ∀ s : State, ∃ t, step s = .next t

/-! ### The register window -/

/-- An access that is not 4 bytes at a 4-aligned address reads 0, writes nothing, runs no command and sets BUS_ERR
(R52). -/
def Obligations.IllegalAccessOnlySetsBusErr : Prop :=
  ∀ (s : State) (a : Addr) (n : Nat) (d : Word) (rest : List HostEvent), (n ≠ 4 ∨ a.extractLsb' 0 2 ≠ 0#2) →
    (s.pending = .read a n :: rest →
      step s = .next { s with
        pending := rest, returned := s.returned ++ [0#32], status := { s.status with busErr := true } }) ∧
    (s.pending = .write a n d :: rest →
      step s = .next { s with pending := rest, status := { s.status with busErr := true } })

/-- A legal access to an unmapped address reads 0, writes nothing and sets BUS_ERR (R54, over the ranges of R53). -/
def Obligations.UnmappedAccessOnlySetsBusErr : Prop :=
  ∀ (s : State) (a : Addr) (d : Word) (rest : List HostEvent), s.cfg.Legal → Unmapped s.cfg a.toNat →
    (s.pending = .read a 4 :: rest →
      step s = .next { s with
        pending := rest, returned := s.returned ++ [0#32], status := { s.status with busErr := true } }) ∧
    (s.pending = .write a 4 d :: rest →
      step s = .next { s with pending := rest, status := { s.status with busErr := true } })

/-- A legal write to a read-only register changes nothing and sets BUS_ERR; a write to STATUS follows R33, so it never sets
it; a read of CMD returns 0 and sets nothing (R55). -/
def Obligations.ReadOnlyWriteOnlySetsBusErr : Prop :=
  ∀ (s : State) (a : Addr) (d : Word) (rest : List HostEvent), s.cfg.Legal →
    (s.pending = .write a 4 d :: rest → ReadOnlyAt s.cfg a.toNat →
      step s = .next { s with pending := rest, status := { s.status with busErr := true } }) ∧
    (s.pending = .write 0x00C#12 4 d :: rest →
      step s = .next { s with
        pending := rest
        status := { s.status with
          stickyErr := s.status.stickyErr && !d.getLsbD 8
          stickyLossy := s.status.stickyLossy && !d.getLsbD 9
          busErr := s.status.busErr && !d.getLsbD 10 } }) ∧
    (s.pending = .read 0x008#12 4 :: rest →
      step s = .next { s with pending := rest, returned := s.returned ++ [0#32] })

/-- A write to STATUS clears the sticky flags whose bits are 1 and changes nothing else; nothing but such a write and
reset ever clears one (R33). -/
def Obligations.OnlyStatusWritesAndResetClearStickyFlags : Prop :=
  (∀ (s : State) (w : Word) (rest : List HostEvent), s.pending = .write 0x00C#12 4 w :: rest →
    step s = .next { s with
      pending := rest
      status := { s.status with
        stickyErr := s.status.stickyErr && !w.getLsbD 8
        stickyLossy := s.status.stickyLossy && !w.getLsbD 9
        busErr := s.status.busErr && !w.getLsbD 10 } }) ∧
  ∀ s t : State, step s = .next t →
    ((s.status.stickyErr = true ∧ t.status.stickyErr = false) ∨
      (s.status.stickyLossy = true ∧ t.status.stickyLossy = false) ∨
      (s.status.busErr = true ∧ t.status.busErr = false)) →
    ∃ rest, s.pending = .reset :: rest ∨ ∃ w, s.pending = .write 0x00C#12 4 w :: rest

/-- What the single registers read: ID, CAP, CMD, ARG, DIN_LEN and both halves of RES (R29, R31, R34 to R36, R53,
R57). -/
def Obligations.SingleRegistersReadTheirValues : Prop :=
  ∀ (s : State) (rest : List HostEvent), s.Wf →
    ∀ row ∈ [(0x000#12, 0x4D465044#32),
      (0x004#12, BitVec.ofNat 32 (s.cfg.maxLen + 2 ^ 8 * s.cfg.nv + 2 ^ 16 * s.cfg.extLen +
        2 ^ 20 * (if s.cfg.extMantW = 64 then 1 else 0))),
      (0x008#12, 0#32), (0x010#12, s.arg), (0x014#12, BitVec.ofNat 32 s.dinLen),
      (0x018#12, BitVec.ofNat 32 (s.res.toNat % 2 ^ 32)), (0x01C#12, BitVec.ofNat 32 (s.res.toNat / 2 ^ 32))],
    s.pending = .read row.1 4 :: rest →
      step s = .next { s with pending := rest, returned := s.returned ++ [row.2] }

/-- STATUS reads its fields in their places, ERR as the code of R221, and 0 in every reserved bit (R32). -/
def Obligations.StatusReadsItsFields : Prop :=
  ∀ (s : State) (rest : List HostEvent),
    ∀ row ∈ [(ErrCode.ok, 0), (.illegalCmd, 1), (.badReg, 2), (.badWidth, 3), (.invalidInput, 4), (.emptyOperand, 5),
      (.capacity, 6)],
    s.status.err = row.1 → s.pending = .read 0x00C#12 4 :: rest →
      step s = .next { s with
        pending := rest
        returned := s.returned ++ [BitVec.ofNat 32 (row.2 + 2 ^ 4 * s.status.lossy.toNat +
          2 ^ 8 * s.status.stickyErr.toNat + 2 ^ 9 * s.status.stickyLossy.toNat + 2 ^ 10 * s.status.busErr.toNat)] }

/-- VCTL(i) reads ALLOC, SIGN and LEN in their places, VSCALE(i) reads SCALE, and MAG word (i, k) reads four magnitude
bytes little-endian, 0 from LEN on (R53, R58). -/
def Obligations.ValueRegisterWindowReads : Prop :=
  ∀ (s : State) (rest : List HostEvent) (i : RegIdx) (k : Nat) (a : Addr), s.Wf → i.toNat < s.cfg.nv → k < 16 →
    ∀ row ∈ [(0x400 + 0x80 * i.toNat,
        BitVec.ofNat 32 ((s.reg i).alloc.toNat + 2 * (s.reg i).sign.toNat + 2 ^ 8 * (s.reg i).len)),
      (0x404 + 0x80 * i.toNat, (s.reg i).scale),
      (0x440 + 0x80 * i.toNat + 4 * k, BitVec.ofNat 32 ((s.reg i).magNat / 2 ^ (32 * k)))],
    a.toNat = row.1 → s.pending = .read a 4 :: rest →
      step s = .next { s with pending := rest, returned := s.returned ++ [row.2] }

/-- A write of a DIN word stores the lanes of the bytes that exist, in little-endian order, and changes nothing else; a
read returns them, with 0 in the other lanes (R56). -/
def Obligations.DinWordsPackFourBytes : Prop :=
  ∀ (s : State) (rest : List HostEvent) (k : Nat) (a : Addr) (d : Word), s.Wf → k < 16 → a.toNat = 0x100 + 4 * k →
    (s.pending = .write a 4 d :: rest →
      ∃ din', step s = .next { s with pending := rest, din := din' } ∧ din'.length = s.cfg.maxLen ∧
        ∀ j < s.cfg.maxLen, din'.getD j 0#8 =
          if 4 * k ≤ j ∧ j < 4 * k + 4 then d.extractLsb' (8 * (j - 4 * k)) 8 else s.din.getD j 0#8) ∧
    (s.pending = .read a 4 :: rest →
      ∃ v : Word, step s = .next { s with pending := rest, returned := s.returned ++ [v] } ∧
        ∀ m < 4, v.extractLsb' (8 * m) 8 = if 4 * k + m < s.cfg.maxLen then s.din.getD (4 * k + m) 0#8 else 0#8)

/-- A write of `d` to DIN_LEN stores `min(d, P_MAXLEN)`; a read returns DIN_LEN in bits 7:0 and 0 above (R57). -/
def Obligations.DinLenWriteStoresTheMinimum : Prop :=
  ∀ (s : State) (rest : List HostEvent) (d : Word), s.Wf →
    (s.pending = .write 0x014#12 4 d :: rest →
      step s = .next { s with pending := rest, dinLen := min d.toNat s.cfg.maxLen }) ∧
    (s.pending = .read 0x014#12 4 :: rest →
      ∃ v : Word, step s = .next { s with pending := rest, returned := s.returned ++ [v] } ∧
        (v.extractLsb' 0 8).toNat = s.dinLen ∧ v.extractLsb' 8 24 = 0#24)

/-- A write to ARG stores the word and changes nothing else (R29, R60). -/
def Obligations.ArgWriteStoresTheWord : Prop :=
  ∀ (s : State) (rest : List HostEvent) (d : Word), s.pending = .write 0x010#12 4 d :: rest →
    step s = .next { s with pending := rest, arg := d }

/-- A read, legal or not, changes no register but, at most, sets BUS_ERR (R52, R54, R60). -/
def Obligations.ReadsHaveNoSideEffect : Prop :=
  ∀ (s : State) (a : Addr) (n : Nat) (rest : List HostEvent), s.pending = .read a n :: rest →
    ∃ (v : Word) (b : Bool), (s.status.busErr = true → b = true) ∧
      step s = .next { s with
        pending := rest, returned := s.returned ++ [v], status := { s.status with busErr := b } }

/-- No host access writes a value register, RES, ERR or LOSSY, but a 4-byte write to CMD and reset (R21, R27, R31, R60).
The clause on the internal carry is the model's choice (log 6, DESIGN CHOICE: R37 does not say what it holds between
commands). -/
def Obligations.OnlyCommandsWriteResults : Prop :=
  ∀ (s t : State) (e : HostEvent) (rest : List HostEvent), s.pending = e :: rest → step s = .next t →
    (∀ w, e ≠ .write 0x008#12 4 w) → e ≠ .reset →
      t.v = s.v ∧ t.res = s.res ∧ t.carry = s.carry ∧ t.status.err = s.status.err ∧ t.status.lossy = s.status.lossy

/-! ### Buffer management and copy -/

/-- CREATE_BUFFER (R100). -/
def Obligations.CreateBufferAllocatesZeros : Prop :=
  SelectedBy 0xFFFFF0FF#32 0x00000001#32 (fun i => ∃ vd, i = .createBuffer vd) ∧
  ∀ (s : State) (vd : RegIdx), s.Wf → vd.toNat < s.cfg.nv →
    (s.arg.toNat ≤ s.cfg.maxLen → exec (.createBuffer vd) s = .next
      (s.wrote vd (.holding s.cfg.maxLen s.arg.toNat (s.reg vd).sign (s.reg vd).scale 0) false)) ∧
    (s.cfg.maxLen < s.arg.toNat → exec (.createBuffer vd) s = .next (s.failed .capacity))

/-- GROW_BUFFER (R101). -/
def Obligations.GrowBufferKeepsTheMagnitude : Prop :=
  SelectedBy 0xFFFFF0FF#32 0x00000002#32 (fun i => ∃ vd, i = .growBuffer vd) ∧
  ∀ (s : State) (vd : RegIdx), s.Wf → vd.toNat < s.cfg.nv →
    ((s.reg vd).alloc = false → s.arg.toNat ≤ s.cfg.maxLen → exec (.growBuffer vd) s = .next
      (s.wrote vd (.holding s.cfg.maxLen s.arg.toNat false 0#32 0) false)) ∧
    ((s.reg vd).alloc = true → s.arg.toNat ≤ (s.reg vd).len →
      exec (.growBuffer vd) s = .next (s.completed false)) ∧
    ((s.reg vd).alloc = true → (s.reg vd).len < s.arg.toNat → s.arg.toNat ≤ s.cfg.maxLen →
      exec (.growBuffer vd) s = .next (s.wrote vd
        (.holding s.cfg.maxLen s.arg.toNat (s.reg vd).sign (s.reg vd).scale (s.reg vd).magNat) false)) ∧
    (s.cfg.maxLen < s.arg.toNat → exec (.growBuffer vd) s = .next (s.failed .capacity))

/-- RELEASE (R102). -/
def Obligations.ReleaseEmptiesTheRegister : Prop :=
  SelectedBy 0xFFFFF0FF#32 0x00000003#32 (fun i => ∃ vd, i = .release vd) ∧
  ∀ (s : State) (vd : RegIdx), vd.toNat < s.cfg.nv → exec (.release vd) s = .next
    (s.wrote vd { alloc := false, len := 0, sign := false, scale := 0#32, mag := List.replicate s.cfg.maxLen 0#8 } false)

/-- COPY (R103): a deep copy, and a self-copy that changes nothing. -/
def Obligations.CopyDuplicatesTheRegister : Prop :=
  SelectedBy 0xFFFF00FF#32 0x00000004#32 (fun i => ∃ vd va, i = .copy vd va) ∧
  ∀ (s : State) (vd va : RegIdx), s.Wf → vd.toNat < s.cfg.nv → va.toNat < s.cfg.nv →
    (vd = va → exec (.copy vd va) s = .next (s.completed false)) ∧
    (vd ≠ va → (s.reg va).alloc = true → exec (.copy vd va) s = .next (s.wrote vd (s.reg va) false)) ∧
    (vd ≠ va → (s.reg va).alloc = false → exec (.copy vd va) s = .next (s.failed .emptyOperand))

/-- After a copy, no later command that writes another register changes the copy, and none that writes the copy changes the
source (R103, "After COPY no later command on V[va] changes V[vd], and none on V[vd] changes V[va]"). -/
def Obligations.CopyIsIndependentOfItsSource : Prop :=
  ∀ (s t u : State) (vd va : RegIdx) (i : Instr), s.Wf → vd.toNat < s.cfg.nv → va.toNat < s.cfg.nv → vd ≠ va →
    (s.reg va).alloc = true → exec (.copy vd va) s = .next t → exec i t = .next u →
      (destOf i ≠ some vd → u.reg vd = s.reg va) ∧ (destOf i = some vd → u.reg va = s.reg va)

/-! ### Mantissa extraction -/

/-- ExtractMantissa clears bit 7 of the most significant byte and nothing else, at every legal width; so widths 63 and
64 agree, and P_EXT_MANT_W never changes a result of DEC_EXT80 (R125). -/
def Obligations.ExtractorClearsOnlyTheTopBit : Prop :=
  (∀ w ∈ [23, 52, 63, 64, 112], ∀ f : List Byte, f.length = (w + 7) / 8 →
    extractMantissa f w = f.set (f.length - 1) (f.getD (f.length - 1) 0#8 &&& 0x7F#8)) ∧
  (∀ f : List Byte, f.length = 8 → extractMantissa f 63 = extractMantissa f 64) ∧
  ∀ (s t u : State) (vd : RegIdx), exec (.decExt80 vd) { s with cfg := { s.cfg with extMantW := 63 } } = .next t →
    exec (.decExt80 vd) { s with cfg := { s.cfg with extMantW := 64 } } = .next u → { u with cfg := t.cfg } = t

/-- DEC_MANT (R126): the first `ceil(ARG/8)` bytes of DIN as an integer, without its top bit. -/
def Obligations.DecMantExtractsTheField : Prop :=
  SelectedBy 0xFFFFF0FF#32 0x00000020#32 (fun i => ∃ vd, i = .decMant vd) ∧
  ∀ (s : State) (vd : RegIdx), s.Wf → vd.toNat < s.cfg.nv →
    let n := (s.arg.toNat + 7) / 8
    (s.arg.toNat ∈ [23, 52, 63, 64, 112] → n ≤ s.dinLen → exec (.decMant vd) s = .next
      (s.wrote vd (.holding s.cfg.maxLen n false 0#32 (leNat (s.din.take n) % 2 ^ (8 * n - 1))) false)) ∧
    (s.arg.toNat ∈ [23, 52, 63, 64, 112] → s.dinLen < n →
      exec (.decMant vd) s = .next (s.failed .invalidInput)) ∧
    (s.arg.toNat ∉ [23, 52, 63, 64, 112] → exec (.decMant vd) s = .next (s.failed .badWidth))

/-! ### Native-type constructors: `d` is the integer of the native value's bytes (R140) -/

/-- FROM_S64 (R141): the magnitude is |x| and SIGN is 1 exactly when x < 0. -/
def Obligations.FromS64StoresSignAndMagnitude : Prop :=
  SelectedBy 0xFFFFF0FF#32 0x00000010#32 (fun i => ∃ vd, i = .fromS64 vd) ∧
  ∀ (s : State) (vd : RegIdx), s.Wf → vd.toNat < s.cfg.nv →
    let x : Int := (BitVec.ofNat 64 (leNat (s.din.take 8))).toInt
    (8 ≤ s.dinLen → exec (.fromS64 vd) s = .next
      (s.wrote vd (.holding s.cfg.maxLen 8 (decide (x < 0)) 0#32 x.natAbs) false)) ∧
    (s.dinLen < 8 → exec (.fromS64 vd) s = .next (s.failed .invalidInput))

/-- FROM_U64 (R142): the bytes verbatim. -/
def Obligations.FromU64StoresTheBytes : Prop :=
  SelectedBy 0xFFFFF0FF#32 0x00000011#32 (fun i => ∃ vd, i = .fromU64 vd) ∧
  ∀ (s : State) (vd : RegIdx), s.Wf → vd.toNat < s.cfg.nv →
    (8 ≤ s.dinLen → exec (.fromU64 vd) s = .next
      (s.wrote vd (.holding s.cfg.maxLen 8 false 0#32 (leNat (s.din.take 8))) false)) ∧
    (s.dinLen < 8 → exec (.fromU64 vd) s = .next (s.failed .invalidInput))

/-- FROM_F64 (R143): SIGN is bit 63, SCALE bits 62:52 raw, and the magnitude bits 54:0. -/
def Obligations.FromF64StoresTheFields : Prop :=
  SelectedBy 0xFFFFF0FF#32 0x00000012#32 (fun i => ∃ vd, i = .fromF64 vd) ∧
  ∀ (s : State) (vd : RegIdx), s.Wf → vd.toNat < s.cfg.nv →
    let d := leNat (s.din.take 8)
    (8 ≤ s.dinLen → exec (.fromF64 vd) s = .next (s.wrote vd
      (.holding s.cfg.maxLen 8 (d.testBit 63) (BitVec.ofNat 32 (d / 2 ^ 52 % 2 ^ 11)) (d % 2 ^ 55)) false)) ∧
    (s.dinLen < 8 → exec (.fromF64 vd) s = .next (s.failed .invalidInput))

/-- FROM_F32 (R144): SIGN is bit 31, SCALE bits 30:23 raw, and the magnitude the 23 fraction bits. -/
def Obligations.FromF32StoresTheFields : Prop :=
  SelectedBy 0xFFFFF0FF#32 0x00000013#32 (fun i => ∃ vd, i = .fromF32 vd) ∧
  ∀ (s : State) (vd : RegIdx), s.Wf → vd.toNat < s.cfg.nv →
    let d := leNat (s.din.take 4)
    (4 ≤ s.dinLen → exec (.fromF32 vd) s = .next (s.wrote vd
      (.holding s.cfg.maxLen 4 (d.testBit 31) (BitVec.ofNat 32 (d / 2 ^ 23 % 2 ^ 8)) (d % 2 ^ 23)) false)) ∧
    (s.dinLen < 4 → exec (.fromF32 vd) s = .next (s.failed .invalidInput))

/-- Re-assembly of a double from what FROM_F64 wrote is exact, with the magnitude masked or whole (R145). -/
def Obligations.DoubleReassemblyIsExact : Prop :=
  ∀ (s t : State) (vd : RegIdx) (d : DWord), s.Wf → vd.toNat < s.cfg.nv → 8 ≤ s.dinLen → leNat (s.din.take 8) = d.toNat →
    exec (.fromF64 vd) s = .next t →
      d = (BitVec.ofNat 64 (t.reg vd).sign.toNat <<< 63) ||| (((t.reg vd).scale.setWidth 64 &&& 0x7FF#64) <<< 52) |||
        (BitVec.ofNat 64 (t.reg vd).magNat &&& BitVec.ofNat 64 (2 ^ 52 - 1)) ∧
      d = (BitVec.ofNat 64 (t.reg vd).sign.toNat <<< 63) ||| ((t.reg vd).scale.setWidth 64 <<< 52) |||
        BitVec.ofNat 64 (t.reg vd).magNat

/-- Re-assembly of a single from what FROM_F32 wrote is exact (R146). -/
def Obligations.SingleReassemblyIsExact : Prop :=
  ∀ (s t : State) (vd : RegIdx) (f : Word), s.Wf → vd.toNat < s.cfg.nv → 4 ≤ s.dinLen → leNat (s.din.take 4) = f.toNat →
    exec (.fromF32 vd) s = .next t →
      f = (BitVec.ofNat 32 (t.reg vd).sign.toNat <<< 31) ||| ((t.reg vd).scale <<< 23) |||
        BitVec.ofNat 32 (t.reg vd).magNat

/-! ### Format decoders: `x` is the integer of the big-endian input -/

/-- DEC_FFP32 (R162): SIGN is bit 7, SCALE bits 6:0 raw, and the magnitude the 24 bits above them. -/
def Obligations.DecFfp32StoresTheFields : Prop :=
  SelectedBy 0xFFFFF0FF#32 0x00000021#32 (fun i => ∃ vd, i = .decFfp32 vd) ∧
  ∀ (s : State) (vd : RegIdx), s.Wf → vd.toNat < s.cfg.nv →
    let x := leNat (s.din.take 4).reverse
    (4 ≤ s.dinLen → exec (.decFfp32 vd) s = .next (s.wrote vd
      (.holding s.cfg.maxLen 4 (x.testBit 7) (BitVec.ofNat 32 (x % 2 ^ 7)) (x / 2 ^ 8)) false)) ∧
    (s.dinLen < 4 → exec (.decFfp32 vd) s = .next (s.failed .invalidInput))

/-- DEC_EXT80 (R163): SIGN is bit 79, SCALE bits 78:64 raw, the magnitude bits 62:0, and LEN is P_EXT_LEN. -/
def Obligations.DecExt80StoresTheFields : Prop :=
  SelectedBy 0xFFFFF0FF#32 0x00000022#32 (fun i => ∃ vd, i = .decExt80 vd) ∧
  ∀ (s : State) (vd : RegIdx), s.Wf → vd.toNat < s.cfg.nv →
    let x := leNat (s.din.take 10).reverse
    (10 ≤ s.dinLen → exec (.decExt80 vd) s = .next (s.wrote vd
      (.holding s.cfg.maxLen s.cfg.extLen (x.testBit 79) (BitVec.ofNat 32 (x / 2 ^ 64 % 2 ^ 15)) (x % 2 ^ 63)) false)) ∧
    (s.dinLen < 10 → exec (.decExt80 vd) s = .next (s.failed .invalidInput))

/-- DEC_QUAD128 (R164): SIGN is bit 127, SCALE bits 126:112 raw, and the magnitude bits 110:0. -/
def Obligations.DecQuad128StoresTheFields : Prop :=
  SelectedBy 0xFFFFF0FF#32 0x00000023#32 (fun i => ∃ vd, i = .decQuad128 vd) ∧
  ∀ (s : State) (vd : RegIdx), s.Wf → vd.toNat < s.cfg.nv →
    let x := leNat (s.din.take 16).reverse
    (16 ≤ s.dinLen → exec (.decQuad128 vd) s = .next (s.wrote vd
      (.holding s.cfg.maxLen 16 (x.testBit 127) (BitVec.ofNat 32 (x / 2 ^ 112 % 2 ^ 15)) (x % 2 ^ 111)) false)) ∧
    (s.dinLen < 16 → exec (.decQuad128 vd) s = .next (s.failed .invalidInput))

/-- LOAD_RAW (R165): DIN's first DIN_LEN bytes, the sign from the command and the scale from ARG. -/
def Obligations.LoadRawStoresTheSpan : Prop :=
  SelectedBy 0xFFEFF0FF#32 0x00000024#32 (fun i => ∃ vd neg, i = .loadRaw vd neg) ∧
  ∀ (s : State) (vd : RegIdx) (neg : Bool), s.Wf → vd.toNat < s.cfg.nv → exec (.loadRaw vd neg) s = .next
    (s.wrote vd (.holding s.cfg.maxLen s.dinLen neg s.arg (leNat (s.din.take s.dinLen))) false)

/-! ### Arithmetic, rescale and narrowing -/

/-- `Align` pads `d` low zero bytes: its length is LEN + d and it denotes `mag * 256^d` (R180). -/
def Obligations.AlignMultipliesByThePadding : Prop :=
  ∀ (m s : Nat) (r : ValueReg), r.Wf m → r.scale.toNat ≤ s →
    (r.alignTo s).length = r.len + (s - r.scale.toNat) ∧ leNat (r.alignTo s) = r.magNat * 256 ^ (s - r.scale.toNat) ∧
      (r.alignTo s).take (s - r.scale.toNat) = List.replicate (s - r.scale.toNat) 0#8

/-- `MagCmp` compares the integers the sequences denote (R181). -/
def Obligations.MagCmpComparesTheIntegers : Prop :=
  ∀ a b : List Byte, magCmp (max a.length b.length) a b = compare (leNat a) (leNat b)

/-- `MagAdd` is exact: L + 1 bytes, the sum of the integers, a last byte of 0 or 1 (R182). -/
def Obligations.MagAddIsExact : Prop :=
  ∀ a b : List Byte, (magAdd (max a.length b.length) a b).1.length = max a.length b.length + 1 ∧
    leNat (magAdd (max a.length b.length) a b).1 = leNat a + leNat b ∧
    ((magAdd (max a.length b.length) a b).1.getD (max a.length b.length) 0#8).toNat ≤ 1

/-- `MagSub` is exact where it is defined: L + 1 bytes, the difference of the integers, a last byte of 0 (R183). -/
def Obligations.MagSubIsExact : Prop :=
  ∀ a b : List Byte, leNat b ≤ leNat a → (magSub (max a.length b.length) a b).length = max a.length b.length + 1 ∧
    leNat (magSub (max a.length b.length) a b) = leNat a - leNat b ∧
    (magSub (max a.length b.length) a b).getD (max a.length b.length) 0#8 = 0#8

/-- ADD (R184, R186): the exact sum of the two signed magnitudes at the larger scale, in L + 1 bytes, with SIGN 0 when
it is 0. What the carry register is left at is not stated (log 6). -/
def Obligations.AddWritesTheExactSum : Prop :=
  SelectedBy 0xFFF000FF#32 0x00000030#32 (fun i => ∃ vd va vb, i = .add vd va vb) ∧
  ∀ (s : State) (vd va vb : RegIdx), s.Wf → vd.toNat < s.cfg.nv → va.toNat < s.cfg.nv → vb.toNat < s.cfg.nv →
    let ra := s.reg va
    let rb := s.reg vb
    let sc := max ra.scale.toNat rb.scale.toNat
    let z := ra.scaledInt ra.sign sc + rb.scaledInt rb.sign sc
    (ra.alloc = true → rb.alloc = true → sumRoom ra rb ≤ s.cfg.maxLen → ∃ c, exec (.add vd va vb) s = .next
      { s.wrote vd (.holding s.cfg.maxLen (sumRoom ra rb) (decide (z < 0)) (BitVec.ofNat 32 sc) z.natAbs) false with
        carry := c }) ∧
    (ra.alloc = false ∨ rb.alloc = false → exec (.add vd va vb) s = .next (s.failed .emptyOperand)) ∧
    (ra.alloc = true → rb.alloc = true → s.cfg.maxLen < sumRoom ra rb →
      exec (.add vd va vb) s = .next (s.failed .capacity))

/-- SUB (R185, R186): as ADD with the sign of V[vb] inverted. -/
def Obligations.SubWritesTheExactDifference : Prop :=
  SelectedBy 0xFFF000FF#32 0x00000031#32 (fun i => ∃ vd va vb, i = .sub vd va vb) ∧
  ∀ (s : State) (vd va vb : RegIdx), s.Wf → vd.toNat < s.cfg.nv → va.toNat < s.cfg.nv → vb.toNat < s.cfg.nv →
    let ra := s.reg va
    let rb := s.reg vb
    let sc := max ra.scale.toNat rb.scale.toNat
    let z := ra.scaledInt ra.sign sc - rb.scaledInt rb.sign sc
    (ra.alloc = true → rb.alloc = true → sumRoom ra rb ≤ s.cfg.maxLen → ∃ c, exec (.sub vd va vb) s = .next
      { s.wrote vd (.holding s.cfg.maxLen (sumRoom ra rb) (decide (z < 0)) (BitVec.ofNat 32 sc) z.natAbs) false with
        carry := c }) ∧
    (ra.alloc = false ∨ rb.alloc = false → exec (.sub vd va vb) s = .next (s.failed .emptyOperand)) ∧
    (ra.alloc = true → rb.alloc = true → s.cfg.maxLen < sumRoom ra rb →
      exec (.sub vd va vb) s = .next (s.failed .capacity))

/-- ADD and SUB are exact over the rationals that registers denote (R24 (a), R190). -/
def Obligations.AddAndSubAreExactOnValues : Prop :=
  ∀ (s t : State) (vd va vb : RegIdx), s.Wf → t.status.err = .ok →
    (exec (.add vd va vb) s = .next t → (t.reg vd).value = (s.reg va).value + (s.reg vb).value) ∧
    (exec (.sub vd va vb) s = .next t → (t.reg vd).value = (s.reg va).value - (s.reg vb).value)

/-- ADD is commutative: both orders of the sources give the same outcome, errors included (R190). -/
def Obligations.AddIsCommutative : Prop :=
  ∀ (s : State) (vd va vb : RegIdx), exec (.add vd va vb) s = exec (.add vd vb va) s

/-- SCALE_TO (R187). -/
def Obligations.ScaleToShiftsTheMagnitude : Prop :=
  SelectedBy 0xFFFFF0FF#32 0x00000038#32 (fun i => ∃ vd, i = .scaleTo vd) ∧
  ∀ (s : State) (vd : RegIdx), s.Wf → vd.toNat < s.cfg.nv →
    let r := s.reg vd
    let t := s.arg.toNat
    let c := r.scale.toNat
    (r.alloc = false → exec (.scaleTo vd) s = .next (s.failed .emptyOperand)) ∧
    (r.alloc = true → t = c → exec (.scaleTo vd) s = .next (s.completed false)) ∧
    (r.alloc = true → c < t → r.len + (t - c) ≤ s.cfg.maxLen → exec (.scaleTo vd) s = .next (s.wrote vd
      (.holding s.cfg.maxLen (r.len + (t - c)) r.sign s.arg (r.magNat * 256 ^ (t - c))) false)) ∧
    (r.alloc = true → c < t → s.cfg.maxLen < r.len + (t - c) →
      exec (.scaleTo vd) s = .next (s.failed .capacity)) ∧
    (r.alloc = true → t < c → exec (.scaleTo vd) s = .next (s.wrote vd
      (.holding s.cfg.maxLen (r.len - (c - t)) r.sign s.arg (r.magNat / 256 ^ (c - t)))
      (decide (r.magNat % 256 ^ (c - t) ≠ 0))))

/-- TO_U64 (R188): the integer part modulo 2^64, negated for SIGN 1; LOSSY exactly when the result differs from the
value. -/
def Obligations.ToU64ReturnsTheIntegerPart : Prop :=
  SelectedBy 0xFFFF0FFF#32 0x00000040#32 (fun i => ∃ va, i = .toU64 va) ∧
  ∀ (s : State) (va : RegIdx), s.Wf → va.toNat < s.cfg.nv →
    let r := s.reg va
    let t := r.magNat / 256 ^ r.scale.toNat
    let fr := r.magNat % 256 ^ r.scale.toNat
    (r.alloc = true → exec (.toU64 va) s = .next
      { s.completed (decide (fr ≠ 0 ∨ 2 ^ 64 ≤ t ∨ (r.sign = true ∧ t ≠ 0))) with
        res := BitVec.ofInt 64 (if r.sign then -(t : Int) else (t : Int)) }) ∧
    (r.alloc = false → exec (.toU64 va) s = .next (s.failed .emptyOperand))

/-- FROM_U64 then TO_U64 returns the original pattern with LOSSY 0; FROM_S64 then TO_U64 returns it with LOSSY 1 exactly
for a negative input (R142, R188). -/
def Obligations.IntegersRoundTripThroughRes : Prop :=
  ∀ (s t u : State) (vd : RegIdx), s.Wf → vd.toNat < s.cfg.nv → 8 ≤ s.dinLen → exec (.toU64 vd) t = .next u →
    (exec (.fromU64 vd) s = .next t → u.res.toNat = leNat (s.din.take 8) ∧ u.status.lossy = false) ∧
    (exec (.fromS64 vd) s = .next t → u.res.toNat = leNat (s.din.take 8) ∧
      (u.status.lossy = true ↔ 2 ^ 63 ≤ leNat (s.din.take 8)))

/-- TO_F64 (R189), in the rationals of the rule's own pseudocode: `Int.log 2 q` is `floor(log2 q)`. -/
def Obligations.ToF64RoundsTowardZero : Prop :=
  SelectedBy 0xFFFF0FFF#32 0x00000041#32 (fun i => ∃ va, i = .toF64 va) ∧
  ∀ (s : State) (va : RegIdx), s.Wf → va.toNat < s.cfg.nv →
    let r := s.reg va
    let q : ℚ := (r.magNat : ℚ) / 256 ^ r.scale.toNat
    let e : Int := Int.log 2 q
    let x : Int := if -1022 ≤ e then 52 - e else 1074
    let m : Int := ⌊q * (2 : ℚ) ^ x⌋
    (r.alloc = true → q = 0 → exec (.toF64 va) s = .next
      { s.completed false with res := BitVec.ofNat 64 (2 ^ 63 * r.sign.toNat) }) ∧
    (r.alloc = true → q ≠ 0 → ∃ lossy, (lossy = true ↔ (m : ℚ) ≠ q * (2 : ℚ) ^ x) ∧ exec (.toF64 va) s = .next
      { s.completed lossy with
        res := BitVec.ofInt 64 (2 ^ 63 * (r.sign.toNat : Int) +
          if -1022 ≤ e then (e + 1023) * 2 ^ 52 + (m - 2 ^ 52) else m) }) ∧
    (r.alloc = false → exec (.toF64 va) s = .next (s.failed .emptyOperand))

/-! ### Errors, STATUS and what commands leave alone -/

/-- A command that fails, a rejected word included, changes nothing but ERR, LOSSY and STICKY_ERR (R222). -/
def Obligations.FailedCommandChangesOnlyStatus : Prop :=
  ∀ (s t : State) (w : Word) (rest : List HostEvent), s.pending = .write 0x008#12 4 w :: rest → step s = .next t →
    t.status.err ≠ .ok → t = { s with
      pending := rest, status := { s.status with err := t.status.err, lossy := false, stickyErr := true } }

/-- A command that completes writes ERR and LOSSY, sets STICKY_LOSSY when it is lossy, and leaves STICKY_ERR and BUS_ERR
unchanged (R223). -/
def Obligations.CompletedCommandStatus : Prop :=
  ∀ (s t : State) (w : Word) (rest : List HostEvent), s.pending = .write 0x008#12 4 w :: rest → step s = .next t →
    t.status.err = .ok → t.status = { s.status with
      err := .ok, lossy := t.status.lossy, stickyLossy := s.status.stickyLossy || t.status.lossy }

/-- No command but SCALE_TO, TO_U64 and TO_F64 sets LOSSY, not even a decoder that strips a data bit (R224). -/
def Obligations.OnlyRescaleAndNarrowingAreLossy : Prop :=
  ∀ (i : Instr) (s t : State), exec i s = .next t → t.status.lossy = true →
    ∃ r, i = .scaleTo r ∨ i = .toU64 r ∨ i = .toF64 r

/-- A command reports the lowest code among the error conditions it meets, OK exactly when it meets none, and never an
error and a loss together (R221, R225). -/
def Obligations.ReportedErrorIsTheLowest : Prop :=
  ∀ (s t : State) (w : Word) (rest : List HostEvent), s.pending = .write 0x008#12 4 w :: rest → step s = .next t →
    (t.status.err = .ok ↔ ∀ e, ¬WordErrorApplies w s e) ∧
    (t.status.err ≠ .ok → WordErrorApplies w s t.status.err ∧ t.status.lossy = false ∧
      ∀ e, WordErrorApplies w s e → t.status.err.code ≤ e.code)

/-- A command changes no value register but its VD, RES only if it is TO_U64 or TO_F64, and never ARG, DIN or DIN_LEN
(R27, R28, R29, R31). Two clauses are the model's choice, not a rule's: that the internal carry changes only for ADD and
SUB (log 6, DESIGN CHOICE: R37 does not say what it holds between commands), and that the model's own fields cfg, pending
and returned stay (logs 1, 2, 3). -/
def Obligations.CommandsChangeOnlyTheirResults : Prop :=
  ∀ (i : Instr) (s t : State), exec i s = .next t →
    t.din = s.din ∧ t.dinLen = s.dinLen ∧ t.arg = s.arg ∧ t.cfg = s.cfg ∧ t.pending = s.pending ∧
      t.returned = s.returned ∧ t.v.length = s.v.length ∧ (∀ j, destOf i ≠ some j → t.reg j = s.reg j) ∧
      (t.res = s.res ∨ ∃ r, i = .toU64 r ∨ i = .toF64 r) ∧
      (t.carry = s.carry ∨ ∃ vd va vb, i = .add vd va vb ∨ i = .sub vd va vb)

/-- Only RELEASE and reset make an allocated register empty (R22). -/
def Obligations.OnlyReleaseAndResetClearAlloc : Prop :=
  ∀ (s t : State) (j : RegIdx), step s = .next t → (s.reg j).alloc = true → (t.reg j).alloc = false →
    ∃ rest, s.pending = .reset :: rest ∨
      ∃ w, s.pending = .write 0x008#12 4 w :: rest ∧ decode w = .ok (.release j)
end

