-- ==== Sys2Proof/Laws/Bytes.lean ====
section
/-! SUPPORT. Byte sequences as integers (R8, R9): what `leNat`, `leBytes` and `fitTo` do, once each. -/

namespace Sys2Proof.Machine

@[simp] theorem leNat_nil : leNat [] = 0 := rfl
@[simp] theorem leNat_cons (b : Byte) (bs : List Byte) : leNat (b :: bs) = b.toNat + 256 * leNat bs := rfl
@[simp] theorem leBytes_zero (m : Nat) : leBytes 0 m = [] := rfl
@[simp] theorem leBytes_succ (n m : Nat) : leBytes (n + 1) m = BitVec.ofNat 8 m :: leBytes n (m / 256) := rfl

theorem leNat_append (a b : List Byte) : leNat (a ++ b) = leNat a + 256 ^ a.length * leNat b := by
  induction a with
  | nil => simp
  | cons x xs ih => simp [ih, pow_succ]; ring

@[simp] theorem leNat_zeros (n : Nat) : leNat (List.replicate n 0#8) = 0 := by
  induction n with
  | zero => rfl
  | succ n ih => simp [List.replicate_succ, ih]

theorem leNat_lt (a : List Byte) : leNat a < 256 ^ a.length := by
  induction a with
  | nil => simp
  | cons x xs ih =>
    have := x.isLt
    simp [pow_succ]; omega

@[simp] theorem length_leBytes (n m : Nat) : (leBytes n m).length = n := by
  induction n generalizing m with
  | zero => rfl
  | succ n ih => simp [ih]

theorem leNat_leBytes (n m : Nat) : leNat (leBytes n m) = m % 256 ^ n := by
  induction n generalizing m with
  | zero => simp [Nat.mod_one]
  | succ n ih =>
    rw [leBytes_succ, leNat_cons, ih, BitVec.toNat_ofNat, pow_succ 256 n, Nat.mul_comm (256 ^ n) 256, Nat.mod_mul]

theorem leBytes_leNat (a : List Byte) : leBytes a.length (leNat a) = a := by
  induction a with
  | nil => rfl
  | cons x xs ih =>
    have hx := x.isLt
    have h1 : (x.toNat + 256 * leNat xs) / 256 = leNat xs := by omega
    simp only [List.length_cons, leBytes_succ, leNat_cons, h1, ih, List.cons.injEq, and_true]
    apply BitVec.eq_of_toNat_eq
    simp only [BitVec.toNat_ofNat]; omega

/-- Byte sequences of one length that denote one integer are one sequence. -/
theorem leNat_inj {a b : List Byte} (hl : a.length = b.length) (h : leNat a = leNat b) : a = b := by
  rw [← leBytes_leNat a, ← leBytes_leNat b, hl, h]

@[simp] theorem leBytes_of_zero (n : Nat) : leBytes n 0 = List.replicate n 0#8 := by
  apply leNat_inj <;> simp [leNat_leBytes]

@[simp] theorem length_fitTo (n : Nat) (b : List Byte) : (fitTo n b).length = n := by
  simp [fitTo]

/-- A sequence that fits keeps its value: `fitTo` then adds high zeros (R23). -/
theorem fitTo_eq_append (n : Nat) (b : List Byte) (h : b.length ≤ n) :
    fitTo n b = b ++ List.replicate (n - b.length) 0#8 := by
  simp only [fitTo, List.take_append, List.take_of_length_le h, List.take_replicate]
  congr 2; omega

theorem leNat_fitTo (n : Nat) (b : List Byte) (h : b.length ≤ n) : leNat (fitTo n b) = leNat b := by
  simp [fitTo_eq_append n b h, leNat_append]

/-- A fitted sequence is the little-endian form of the integer it denotes: what `Commit` stores is a `holding`
register. -/
theorem fitTo_eq_leBytes (n : Nat) (b : List Byte) (h : b.length ≤ n) : fitTo n b = leBytes n (leNat b) := by
  have hlt : leNat b < 256 ^ n :=
    lt_of_lt_of_le (leNat_lt b) (Nat.pow_le_pow_right (by norm_num) h)
  exact leNat_inj (by simp) (by rw [leNat_fitTo n b h, leNat_leBytes, Nat.mod_eq_of_lt hlt])

/-- The bytes from `n` on of a sequence cut to `n` and fitted are 0 (R23). -/
theorem fitTo_take_tail (m n : Nat) (b : List Byte) : ∀ x ∈ (fitTo m (b.take n)).drop n, x = 0#8 := by
  intro x hx
  have h1 : fitTo m (b.take n) = (b.take n).take m ++ List.replicate (m - (b.take n).length) 0#8 := by
    simp only [fitTo, List.take_append, List.take_replicate]
    congr 2; omega
  rw [h1, List.drop_append] at hx
  have h2 : ((b.take n).take m).drop n = [] := by simp
  rw [h2, List.nil_append] at hx
  exact List.eq_of_mem_replicate (List.mem_of_mem_drop hx)

/-- What `Commit` stores for bytes `b` of length `len` is the register that holds their integer. -/
theorem commit_eq_wrote (i : RegIdx) (len : Nat) (sg : Bool) (sc : Word) (b : List Byte) (s : State)
    (hb : b.length = len) (hl : len ≤ s.cfg.maxLen) :
    commit i len sg sc b s = s.setReg i (ValueReg.holding s.cfg.maxLen len sg sc (leNat b)) := by
  have : b.take len = b := by rw [List.take_of_length_le (Nat.le_of_eq hb)]
  simp only [commit, this, ValueReg.holding, fitTo_eq_leBytes _ _ (hb ▸ hl)]

theorem leNat_take_add_drop (n : Nat) (a : List Byte) (h : n ≤ a.length) :
    leNat a = leNat (a.take n) + 256 ^ n * leNat (a.drop n) := by
  conv_lhs => rw [← List.take_append_drop n a]
  rw [leNat_append, List.length_take, Nat.min_eq_left h]

/-- Dropping `n` low bytes divides by `256^n`, rounding down (R187, R188). -/
theorem leNat_drop (n : Nat) (a : List Byte) : leNat (a.drop n) = leNat a / 256 ^ n := by
  by_cases h : n ≤ a.length
  · have hlt := leNat_lt (a.take n)
    rw [List.length_take, Nat.min_eq_left h] at hlt
    rw [leNat_take_add_drop n a h, Nat.add_mul_div_left _ _ (by positivity), Nat.div_eq_of_lt hlt, Nat.zero_add]
  · have hd : a.drop n = [] := List.drop_of_length_le (Nat.le_of_not_le h)
    have : leNat a < 256 ^ n :=
      lt_of_lt_of_le (leNat_lt a) (Nat.pow_le_pow_right (by norm_num) (Nat.le_of_not_le h))
    rw [hd, Nat.div_eq_of_lt this, leNat_nil]

/-- The low `n` bytes are the remainder by `256^n` (R187, R188). -/
theorem leNat_take (n : Nat) (a : List Byte) : leNat (a.take n) = leNat a % 256 ^ n := by
  by_cases h : n ≤ a.length
  · have hlt := leNat_lt (a.take n)
    rw [List.length_take, Nat.min_eq_left h] at hlt
    rw [leNat_take_add_drop n a h, Nat.add_mul_mod_self_left, Nat.mod_eq_of_lt hlt]
  · have : leNat a < 256 ^ n :=
      lt_of_lt_of_le (leNat_lt a) (Nat.pow_le_pow_right (by norm_num) (Nat.le_of_not_le h))
    rw [List.take_of_length_le (Nat.le_of_not_le h), Nat.mod_eq_of_lt this]

/-- A byte sequence denotes 0 exactly if no byte of it is nonzero. -/
theorem leNat_eq_zero_iff (a : List Byte) : leNat a = 0 ↔ a.any (fun b => b != 0#8) = false := by
  induction a with
  | nil => simp
  | cons x xs ih =>
    have hx : x.toNat = 0 ↔ x = 0#8 := by
      constructor
      · intro h; exact BitVec.eq_of_toNat_eq (by simpa using h)
      · rintro rfl; rfl
    simp only [leNat_cons, Nat.add_eq_zero_iff, List.any_cons, Bool.or_eq_false_iff, hx, ← ih]
    simp

/-- The integer a `holding` register denotes. -/
theorem magNat_holding (maxLen n : Nat) (sg : Bool) (sc : Word) (m : Nat) (hn : n ≤ maxLen) (hm : m < 256 ^ n) :
    (ValueReg.holding maxLen n sg sc m).magNat = m := by
  have h : m % 256 ^ maxLen = m :=
    Nat.mod_eq_of_lt (lt_of_lt_of_le hm (Nat.pow_le_pow_right (by norm_num) hn))
  simp [ValueReg.magNat, ValueReg.bytes, ValueReg.holding, leNat_take, leNat_leBytes, h, Nat.mod_eq_of_lt hm]

end Sys2Proof.Machine
end

