-- ==== Sys2Proof/Laws/State.lean ====
section
/-! SUPPORT. One lemma per field per update of State, each true by rfl, so that no proof unfolds a record update; and
what reading a value register gives after writing one. -/

namespace Sys2Proof.Machine

section SetReg
variable (s : State) (i : RegIdx) (r : ValueReg)
@[simp] theorem setReg_cfg : (s.setReg i r).cfg = s.cfg := rfl
@[simp] theorem setReg_v : (s.setReg i r).v = s.v.set i.toNat r := rfl
@[simp] theorem setReg_din : (s.setReg i r).din = s.din := rfl
@[simp] theorem setReg_dinLen : (s.setReg i r).dinLen = s.dinLen := rfl
@[simp] theorem setReg_arg : (s.setReg i r).arg = s.arg := rfl
@[simp] theorem setReg_res : (s.setReg i r).res = s.res := rfl
@[simp] theorem setReg_status : (s.setReg i r).status = s.status := rfl
@[simp] theorem setReg_carry : (s.setReg i r).carry = s.carry := rfl
@[simp] theorem setReg_pending : (s.setReg i r).pending = s.pending := rfl
@[simp] theorem setReg_returned : (s.setReg i r).returned = s.returned := rfl
end SetReg

section Commit
variable (i : RegIdx) (n : Nat) (sg : Bool) (sc : Word) (b : List Byte) (s : State)
@[simp] theorem commit_cfg : (commit i n sg sc b s).cfg = s.cfg := rfl
@[simp] theorem commit_din : (commit i n sg sc b s).din = s.din := rfl
@[simp] theorem commit_dinLen : (commit i n sg sc b s).dinLen = s.dinLen := rfl
@[simp] theorem commit_arg : (commit i n sg sc b s).arg = s.arg := rfl
@[simp] theorem commit_res : (commit i n sg sc b s).res = s.res := rfl
@[simp] theorem commit_status : (commit i n sg sc b s).status = s.status := rfl
@[simp] theorem commit_carry : (commit i n sg sc b s).carry = s.carry := rfl
@[simp] theorem commit_pending : (commit i n sg sc b s).pending = s.pending := rfl
@[simp] theorem commit_returned : (commit i n sg sc b s).returned = s.returned := rfl
/-- `Commit` writes one register of the file, whole (R9). -/
@[simp] theorem commit_v : (commit i n sg sc b s).v =
    s.v.set i.toNat { alloc := true, len := n, sign := sg, scale := sc, mag := fitTo s.cfg.maxLen (b.take n) } := rfl
end Commit

section Status
variable (st : Status) (e : ErrCode) (l : Bool) (w : Word)
@[simp] theorem afterError_err : (st.afterError e).err = e := rfl
@[simp] theorem afterError_lossy : (st.afterError e).lossy = false := rfl
@[simp] theorem afterError_stickyErr : (st.afterError e).stickyErr = true := rfl
@[simp] theorem afterError_stickyLossy : (st.afterError e).stickyLossy = st.stickyLossy := rfl
@[simp] theorem afterError_busErr : (st.afterError e).busErr = st.busErr := rfl
@[simp] theorem afterSuccess_err : (st.afterSuccess l).err = .ok := rfl
@[simp] theorem afterSuccess_lossy : (st.afterSuccess l).lossy = l := rfl
@[simp] theorem afterSuccess_stickyErr : (st.afterSuccess l).stickyErr = st.stickyErr := rfl
@[simp] theorem afterSuccess_stickyLossy : (st.afterSuccess l).stickyLossy = (st.stickyLossy || l) := rfl
@[simp] theorem afterSuccess_busErr : (st.afterSuccess l).busErr = st.busErr := rfl
@[simp] theorem afterWrite_err : (st.afterWrite w).err = st.err := rfl
@[simp] theorem afterWrite_lossy : (st.afterWrite w).lossy = st.lossy := rfl
@[simp] theorem afterBusError_err : st.afterBusError.err = st.err := rfl
@[simp] theorem afterBusError_busErr : st.afterBusError.busErr = true := rfl
end Status

section Empty
variable (n : Nat)
@[simp] theorem empty_alloc : (ValueReg.empty n).alloc = false := rfl
@[simp] theorem empty_len : (ValueReg.empty n).len = 0 := rfl
@[simp] theorem empty_sign : (ValueReg.empty n).sign = false := rfl
@[simp] theorem empty_scale : (ValueReg.empty n).scale = 0#32 := rfl
@[simp] theorem empty_mag : (ValueReg.empty n).mag = List.replicate n 0#8 := rfl
end Empty

/-- Reading a register that was just written gives what was written, if it exists. -/
theorem reg_setReg_same (s : State) (i : RegIdx) (r : ValueReg) (h : i.toNat < s.v.length) :
    (s.setReg i r).reg i = r := by
  simp [State.reg, State.setReg, List.getD, h]

/-- Writing a register leaves every other register alone (R21: none aliases another). -/
theorem reg_setReg_other (s : State) (i j : RegIdx) (r : ValueReg) (h : j ≠ i) :
    (s.setReg i r).reg j = s.reg j := by
  have : i.toNat ≠ j.toNat := fun e => h (BitVec.eq_of_toNat_eq e.symm)
  simp [State.reg, State.setReg, List.getD, List.getElem?_set_ne this]

/-- A register of the file, or the empty one. -/
theorem reg_mem (s : State) (i : RegIdx) (h : i.toNat < s.v.length) : s.reg i ∈ s.v := by
  simp [State.reg, List.getD, h]

/-- Writing what a register holds changes nothing. -/
theorem setReg_reg (s : State) (i : RegIdx) : s.setReg i (s.reg i) = s := by
  by_cases h : i.toNat < s.v.length
  · simp [State.setReg, State.reg, List.getD, h]
  · simp [State.setReg, List.set_eq_of_length_le (Nat.le_of_not_lt h)]

end Sys2Proof.Machine
end

