-- ==== Sys2Proof/Laws/Ops.lean ====
section
/-! SUPPORT. What each shared operation of Machine/Ops.lean can do, said once: the guards, raising an error, completing,
and `Commit` with the register invariant of R22 and R23. -/

namespace Sys2Proof.Machine

/-- Raising an error has one outcome (R222). -/
theorem raiseError_eq (e : ErrCode) (s : State) : raiseError e s = .next (s.failed e) := rfl

/-- Completing has one outcome (R223). -/
theorem complete_eq (l : Bool) (s : State) : complete l s = .next (s.completed l) := rfl

/-- The BAD_REG check either goes on or fails with BAD_REG (R82). -/
theorem withRegs_cases (rs : List RegIdx) (s : State) (k : Result) :
    ((∀ r ∈ rs, r.toNat < s.cfg.nv) ∧ withRegs rs s k = k) ∨
      ((∃ r ∈ rs, s.cfg.nv ≤ r.toNat) ∧ withRegs rs s k = .next (s.failed .badReg)) := by
  by_cases h : ∀ r ∈ rs, r.toNat < s.cfg.nv
  · exact .inl ⟨h, by rw [withRegs, if_pos (by simpa [List.all_eq_true] using h)]⟩
  · refine .inr ⟨by simpa using h, ?_⟩
    rw [withRegs, if_neg (by simpa [List.all_eq_true] using h), raiseError_eq]

/-- Every named register exists: the check goes on. -/
theorem withRegs_pos {rs : List RegIdx} {s : State} (k : Result) (h : ∀ r ∈ rs, r.toNat < s.cfg.nv) :
    withRegs rs s k = k := by
  rw [withRegs, if_pos (by simpa [List.all_eq_true] using h)]

/-- The EMPTY_OPERAND check either goes on or fails with EMPTY_OPERAND (R22). -/
theorem withSources_cases (rs : List RegIdx) (s : State) (k : Result) :
    ((∀ r ∈ rs, (s.reg r).alloc = true) ∧ withSources rs s k = k) ∨
      ((∃ r ∈ rs, (s.reg r).alloc = false) ∧ withSources rs s k = .next (s.failed .emptyOperand)) := by
  by_cases h : ∀ r ∈ rs, (s.reg r).alloc = true
  · exact .inl ⟨h, by rw [withSources, if_pos (by simpa [List.all_eq_true] using h)]⟩
  · refine .inr ⟨by simpa using h, ?_⟩
    rw [withSources, if_neg (by simpa [List.all_eq_true] using h), raiseError_eq]

/-- The CAPACITY check either goes on or fails with CAPACITY (R221). -/
theorem withCapacity_cases (n : Nat) (s : State) (k : Result) :
    (n ≤ s.cfg.maxLen ∧ withCapacity n s k = k) ∨
      (s.cfg.maxLen < n ∧ withCapacity n s k = .next (s.failed .capacity)) := by
  by_cases h : n ≤ s.cfg.maxLen
  · exact .inl ⟨h, by rw [withCapacity, if_neg (Nat.not_lt.mpr h)]⟩
  · exact .inr ⟨Nat.lt_of_not_le h, by rw [withCapacity, if_pos (Nat.lt_of_not_le h), raiseError_eq]⟩

/-- The INVALID_INPUT check either goes on or fails with INVALID_INPUT (R160). -/
theorem withSpan_cases (n : Nat) (s : State) (k : Result) :
    (n ≤ s.dinLen ∧ withSpan n s k = k) ∨
      (s.dinLen < n ∧ withSpan n s k = .next (s.failed .invalidInput)) := by
  by_cases h : n ≤ s.dinLen
  · exact .inl ⟨h, by rw [withSpan, if_neg (Nat.not_lt.mpr h)]⟩
  · exact .inr ⟨Nat.lt_of_not_le h, by rw [withSpan, if_pos (Nat.lt_of_not_le h), raiseError_eq]⟩

/-- The empty register meets R22 and R23. -/
theorem empty_wf (n : Nat) : (ValueReg.empty n).Wf n :=
  ⟨by simp, by simp, fun _ hb => List.eq_of_mem_replicate (List.mem_of_mem_drop hb), fun _ => rfl⟩

/-- What `Commit` writes meets R22 and R23, whatever the bytes (R23: "Every write to a value register goes through
Commit, which keeps this invariant"). -/
theorem committed_wf (m n : Nat) (sg : Bool) (sc : Word) (b : List Byte) (h : n ≤ m) :
    ValueReg.Wf m { alloc := true, len := n, sign := sg, scale := sc, mag := fitTo m (b.take n) } :=
  ⟨by simp, h, fitTo_take_tail m n b, fun hf => by cases hf⟩

/-- A register of a well-formed state is well formed, existing or not. -/
theorem reg_wf {s : State} (h : s.Wf) (i : RegIdx) : (s.reg i).Wf s.cfg.maxLen := by
  by_cases hi : i.toNat < s.v.length
  · exact h.2.2.1 _ (reg_mem s i hi)
  · have : s.reg i = ValueReg.empty s.cfg.maxLen := by simp [State.reg, List.getD, Nat.le_of_not_lt hi]
    rw [this]; exact empty_wf _

/-- Writing a well-formed register keeps a state well formed. -/
theorem setReg_wf {s : State} (h : s.Wf) (i : RegIdx) {r : ValueReg} (hr : r.Wf s.cfg.maxLen) : (s.setReg i r).Wf := by
  refine ⟨h.1, by simpa using h.2.1, ?_, h.2.2.2⟩
  intro x hx
  rcases List.mem_or_eq_of_mem_set hx with hx | rfl
  · exact h.2.2.1 x hx
  · exact hr

/-- `Commit` of a length that fits keeps a state well formed (R23). -/
theorem commit_wf {s : State} (h : s.Wf) (i : RegIdx) {n : Nat} (sg : Bool) (sc : Word) (b : List Byte)
    (hn : n ≤ s.cfg.maxLen) : (commit i n sg sc b s).Wf :=
  setReg_wf h i (committed_wf _ _ _ _ _ hn)

/-- Writing STATUS keeps a state well formed. -/
theorem completed_wf {s : State} (h : s.Wf) (l : Bool) : (s.completed l).Wf := h

/-- A failed command keeps a state well formed. -/
theorem failed_wf {s : State} (h : s.Wf) (e : ErrCode) : (s.failed e).Wf := h

/-- LEN bytes exist in a well-formed register. -/
theorem length_bytes {m : Nat} {r : ValueReg} (h : r.Wf m) : r.bytes.length = r.len := by
  simp [ValueReg.bytes, h.1, h.2.1]

/-- A well-formed allocated register is the one that holds its integer: its MAG is zero from LEN on (R23). -/
theorem eq_holding {m : Nat} {r : ValueReg} (h : r.Wf m) (ha : r.alloc = true) :
    r = ValueReg.holding m r.len r.sign r.scale r.magNat := by
  have hz : r.mag = r.bytes ++ List.replicate (m - r.len) 0#8 := by
    conv_lhs => rw [← List.take_append_drop r.len r.mag]
    congr 1
    exact List.eq_replicate_iff.mpr ⟨by simp [h.1], h.2.2.1⟩
  have hmag : r.mag = leBytes m r.magNat := by
    rw [hz, ValueReg.magNat, ← fitTo_eq_leBytes m r.bytes (by rw [length_bytes h]; exact h.2.1),
      fitTo_eq_append m r.bytes (by rw [length_bytes h]; exact h.2.1), length_bytes h]
  obtain ⟨al, len, sg, sc, mag⟩ := r
  obtain rfl : al = true := ha
  rw [ValueReg.holding, ← hmag]

/-- The integer of a well-formed register fits its LEN bytes. -/
theorem magNat_lt {m : Nat} {r : ValueReg} (h : r.Wf m) : r.magNat < 256 ^ r.len := by
  have := leNat_lt r.bytes
  rwa [length_bytes h] at this

@[simp] theorem length_dinUp (s : State) (lo n : Nat) : (s.dinUp lo n).length = n := by simp [State.dinUp]
@[simp] theorem length_dinDown (s : State) (hi n : Nat) : (s.dinDown hi n).length = n := by simp [State.dinDown]

/-- A little-endian field of DIN that DIN holds is DIN's own bytes there. -/
theorem dinUp_eq (s : State) (lo n : Nat) (h : lo + n ≤ s.din.length) : s.dinUp lo n = (s.din.drop lo).take n := by
  apply List.ext_getElem
  · simp; omega
  · intro j h1 h2
    have hj : lo + j < s.din.length := by
      simp at h1; omega
    simp [State.dinUp, State.dinByte, List.getD, hj]

/-- A big-endian field of DIN that DIN holds is DIN's own bytes there, reversed. -/
theorem dinDown_eq (s : State) (lo n : Nat) (h : lo + n ≤ s.din.length) (hn : 0 < n) :
    s.dinDown (lo + n - 1) n = ((s.din.drop lo).take n).reverse := by
  apply List.ext_getElem
  · simp; omega
  · intro j h1 h2
    simp at h1
    have hj : lo + n - 1 - j < s.din.length := by omega
    have hm : min n (s.din.length - lo) = n := by omega
    simp only [State.dinDown, State.dinByte, List.getElem_map, List.getElem_range, List.getD_eq_getElem?_getD,
      List.getElem?_eq_getElem hj, Option.getD_some, List.getElem_reverse, List.getElem_take, List.getElem_drop,
      List.length_take, List.length_drop, hm]
    congr 1; omega

end Sys2Proof.Machine
end

