-- ==== Sys2Proof/Laws/Host.lean ====
section
/-! SUPPORT. What one step does with each host event, and what a host access can do, said once. -/

namespace Sys2Proof.Machine

/-- A step takes the oldest pending host event. -/
theorem step_cons {s : State} {e : HostEvent} {rest : List HostEvent} (h : s.pending = e :: rest) :
    step s = hostEvent e { s with pending := rest } := by
  rw [step, serveHost, h]

/-- A command word that decodes runs its command (R82). -/
theorem runCommand_ok {w : Word} {i : Instr} (h : decode w = .ok i) (s : State) : runCommand w s = exec i s := by
  rw [runCommand, h]

/-- A rejected word raises ILLEGAL_CMD, whatever the reason (R85). -/
theorem runCommand_error {w : Word} {e : Reject} (h : decode w = .error e) (s : State) :
    runCommand w s = .next (s.failed .illegalCmd) := by
  rw [runCommand, h]; cases e <;> rfl

/-- A read returns one word and changes no register but, when it is illegal or unmapped, BUS_ERR (R52, R54, R60). -/
theorem busRead_cases (a : Addr) (n : Nat) (s : State) :
    (∃ r, legalAccess a n = true ∧ regAt s.cfg a = some r ∧ busRead a n s = deliver (readReg s r) s) ∨
      ((legalAccess a n = false ∨ regAt s.cfg a = none) ∧ busRead a n s = deliver 0#32 (busError s)) := by
  unfold busRead
  cases hl : legalAccess a n
  · exact .inr ⟨.inl rfl, by simp⟩
  · cases hr : regAt s.cfg a
    · exact .inr ⟨.inr rfl, by simp⟩
    · exact .inl ⟨_, rfl, rfl, by simp⟩

/-- A write runs a command exactly when it is a legal write to CMD; else it answers a next state (R52, R54, R55). -/
theorem busWrite_cases (a : Addr) (n : Nat) (d : Word) (s : State) :
    (legalAccess a n = true ∧ regAt s.cfg a = some .cmd ∧ busWrite a n d s = runCommand d s) ∨
      (∃ r, r ≠ .cmd ∧ legalAccess a n = true ∧ regAt s.cfg a = some r ∧ busWrite a n d s = .next (writeReg d s r)) ∨
      ((legalAccess a n = false ∨ regAt s.cfg a = none) ∧ busWrite a n d s = .next (busError s)) := by
  unfold busWrite
  cases hl : legalAccess a n
  · exact .inr (.inr ⟨.inl rfl, by simp⟩)
  · cases hr : regAt s.cfg a with
    | none => exact .inr (.inr ⟨.inr rfl, by simp⟩)
    | some r =>
      by_cases hc : r = .cmd
      · subst hc; exact .inl ⟨rfl, rfl, by simp⟩
      · refine .inr (.inl ⟨r, hc, rfl, rfl, ?_⟩)
        cases r <;> first | rfl | exact absurd rfl hc

section Map
variable (p : Params)
@[simp] theorem regAt_id : regAt p 0x000#12 = some .id := by simp [regAt]
@[simp] theorem regAt_cap : regAt p 0x004#12 = some .cap := by simp [regAt]
@[simp] theorem regAt_cmd : regAt p 0x008#12 = some .cmd := by simp [regAt]
@[simp] theorem regAt_status : regAt p 0x00C#12 = some .status := by simp [regAt]
@[simp] theorem regAt_arg : regAt p 0x010#12 = some .arg := by simp [regAt]
@[simp] theorem regAt_dinLen : regAt p 0x014#12 = some .dinLen := by simp [regAt]
@[simp] theorem regAt_resLo : regAt p 0x018#12 = some .resLo := by simp [regAt]
@[simp] theorem regAt_resHi : regAt p 0x01C#12 = some .resHi := by simp [regAt]

/-- The map above its eight single registers: the DIN words, then the windows of the value registers (R53). -/
theorem regAt_above_singles {a : Addr} (h : 0x20 ≤ a.toNat) :
    regAt p a =
      if 0x100 ≤ a.toNat ∧ a.toNat < 0x140 then some (.din ((a.toNat - 0x100) / 4))
      else if 0x400 ≤ a.toNat ∧ (a.toNat - 0x400) / 0x80 < p.nv then
        valueRegAt ((a.toNat - 0x400) / 0x80) ((a.toNat - 0x400) % 0x80)
      else none := by
  have single (n : Nat) (hn : n < 0x20) : a.toNat ≠ n := fun e => absurd (e ▸ h) (Nat.not_le_of_lt hn)
  simp [regAt, single]

/-- The DIN words of the map (R53). -/
theorem regAt_din {a : Addr} {k : Nat} (hk : k < 16) (h : a.toNat = 0x100 + 4 * k) : regAt p a = some (.din k) := by
  have hword : (a.toNat - 0x100) / 4 = k := by omega
  have hdin : 0x100 ≤ a.toNat ∧ a.toNat < 0x140 := by omega
  rw [regAt_above_singles p (by omega), if_pos hdin, hword]

/-- The window of an existing value register (R53). -/
theorem regAt_window {a : Addr} {i off : Nat} (hi : i < p.nv) (ho : off < 0x80) (h : a.toNat = 0x400 + 0x80 * i + off) :
    regAt p a = valueRegAt i off := by
  have hreg : (a.toNat - 0x400) / 0x80 = i := by omega
  have hoff : (a.toNat - 0x400) % 0x80 = off := by omega
  have hdin : ¬(0x100 ≤ a.toNat ∧ a.toNat < 0x140) := by omega
  rw [regAt_above_singles p (by omega), if_neg hdin, hreg, hoff, if_pos ⟨by omega, hi⟩]

/-- Only one address of the map is CMD's, and only one is STATUS's (R53): a register at another address is neither. -/
theorem regAt_cmd_or_status {a : Addr} {r : WindowReg} (h : regAt p a = some r) :
    (r = .cmd → a = 0x008#12) ∧ (r = .status → a = 0x00C#12) := by
  by_cases h8 : a.toNat = 8
  · obtain rfl : a = 0x008#12 := BitVec.eq_of_toNat_eq h8
    rw [regAt_cmd] at h
    cases h
    exact ⟨fun _ => rfl, fun e => (by cases e)⟩
  by_cases hc : a.toNat = 12
  · obtain rfl : a = 0x00C#12 := BitVec.eq_of_toNat_eq hc
    rw [regAt_status] at h
    cases h
    exact ⟨fun e => (by cases e), fun _ => rfl⟩
  have hne : r ≠ .cmd ∧ r ≠ .status := by
    unfold regAt valueRegAt at h
    simp only [if_neg h8, if_neg hc] at h
    repeat' split at h
    all_goals first | (cases h; exact ⟨by simp, by simp⟩) | cases h
  exact ⟨fun e => absurd e hne.1, fun e => absurd e hne.2⟩
end Map

/-- Storing a cell keeps a byte array's length (R56). -/
@[simp] theorem length_setCell (n j : Nat) (b : Byte) (cells : List Byte) :
    (setCell n j b cells).length = cells.length := by
  unfold setCell; split <;> simp

/-- Storing a word keeps a byte array's length (R56). -/
@[simp] theorem length_unpackWord (n k : Nat) (w : Word) (cells : List Byte) :
    (unpackWord n k w cells).length = cells.length := by
  simp [unpackWord]

/-- A stored cell that exists reads back what was stored; every other cell reads as before (R56). -/
theorem cellAt_setCell (n i j : Nat) (b : Byte) (cells : List Byte) (h : cells.length = n) :
    cellAt n (setCell n i b cells) j = if i = j ∧ j < n then b else cellAt n cells j := by
  unfold cellAt setCell
  by_cases hj : j < n
  · by_cases hi : i < n
    · by_cases hij : i = j
      · subst hij; simp [hi, List.getD, h]
      · simp [hi, hj, hij, List.getD, List.getElem?_set_ne hij]
    · have : i ≠ j := by omega
      simp [hi, hj, this]
  · simp [hj]

end Sys2Proof.Machine
end

