-- ==== Sys2Proof/Laws/PerInstr.lean ====
section
/-! SUPPORT. Statements about every command, one lemma per constructor of Instr: a command's word lies in its row of the
opcode map (R84), whatever its operands. -/

namespace Sys2Proof.Laws

/-- A command's word agrees with its row's match under its row's mask (R84). -/
def EncodesItsRow.Statement (i : Instr) : Prop :=
  encode i &&& i.opcode.maskWord = i.opcode.matchWord

/-- A field that is 0, or that the mask frees, contributes nothing under the mask. -/
theorem field_masked (mask : Word) (k n : Nat) (x : BitVec n) (h : x = 0 ∨ mask.extractLsb' k n = 0) :
    (x.setWidth 32 <<< k) &&& mask = 0#32 := by
  rcases h with rfl | h
  · simp
  · apply BitVec.eq_of_getLsbD_eq
    intro i hi
    have hbit := congrArg (fun v => v.getLsbD (i - k)) h
    simp only [BitVec.getLsbD_extractLsb', BitVec.ofNat_eq_ofNat, BitVec.getLsbD_zero, Bool.and_eq_false_imp,
      decide_eq_true_eq] at hbit
    simp only [BitVec.getLsbD_and, BitVec.getLsbD_shiftLeft, BitVec.getLsbD_setWidth, BitVec.getLsbD_zero,
      Bool.and_eq_false_imp, Bool.and_eq_true, decide_eq_true_eq, Bool.not_eq_true', decide_eq_false_iff_not,
      not_lt, and_imp]
    intro _ hk _ hx
    have := hbit (BitVec.lt_of_getLsbD hx)
    rwa [Nat.add_sub_cancel' hk] at this

/-- A mask distributes over the parts of a word. -/
theorem or_masked (x y z : Word) : (x ||| y) &&& z = (x &&& z) ||| (y &&& z) := by
  apply BitVec.eq_of_getLsbD_eq
  intro i _
  simp [Bool.and_or_distrib_right]

/-- A word built from fields meets the row of its opcode, when every field is 0 or free under the mask. -/
theorem encodeFields_masked (op : Opcode) (vd va vb : RegIdx) (neg : Bool)
    (hop : op.code.setWidth 32 &&& op.maskWord = op.matchWord)
    (hd : vd = 0 ∨ op.maskWord.extractLsb' 8 4 = 0) (ha : va = 0 ∨ op.maskWord.extractLsb' 12 4 = 0)
    (hb : vb = 0 ∨ op.maskWord.extractLsb' 16 4 = 0)
    (hs : BitVec.ofBool neg = 0 ∨ op.maskWord.extractLsb' 20 1 = 0) :
    encodeFields op vd va vb neg &&& op.maskWord = op.matchWord := by
  simp only [encodeFields, or_masked, field_masked _ _ _ _ hd, field_masked _ _ _ _ ha,
    field_masked _ _ _ _ hb, field_masked _ _ _ _ hs, hop, BitVec.or_zero]

theorem EncodesItsRow.createBuffer (vd : RegIdx) : EncodesItsRow.Statement (.createBuffer vd) :=
  encodeFields_masked .createBuffer _ _ _ _ (by decide) (.inr (by decide)) (.inl rfl) (.inl rfl) (.inl rfl)
theorem EncodesItsRow.growBuffer (vd : RegIdx) : EncodesItsRow.Statement (.growBuffer vd) :=
  encodeFields_masked .growBuffer _ _ _ _ (by decide) (.inr (by decide)) (.inl rfl) (.inl rfl) (.inl rfl)
theorem EncodesItsRow.release (vd : RegIdx) : EncodesItsRow.Statement (.release vd) :=
  encodeFields_masked .release _ _ _ _ (by decide) (.inr (by decide)) (.inl rfl) (.inl rfl) (.inl rfl)
theorem EncodesItsRow.copy (vd va : RegIdx) : EncodesItsRow.Statement (.copy vd va) :=
  encodeFields_masked .copy _ _ _ _ (by decide) (.inr (by decide)) (.inr (by decide)) (.inl rfl) (.inl rfl)
theorem EncodesItsRow.fromS64 (vd : RegIdx) : EncodesItsRow.Statement (.fromS64 vd) :=
  encodeFields_masked .fromS64 _ _ _ _ (by decide) (.inr (by decide)) (.inl rfl) (.inl rfl) (.inl rfl)
theorem EncodesItsRow.fromU64 (vd : RegIdx) : EncodesItsRow.Statement (.fromU64 vd) :=
  encodeFields_masked .fromU64 _ _ _ _ (by decide) (.inr (by decide)) (.inl rfl) (.inl rfl) (.inl rfl)
theorem EncodesItsRow.fromF64 (vd : RegIdx) : EncodesItsRow.Statement (.fromF64 vd) :=
  encodeFields_masked .fromF64 _ _ _ _ (by decide) (.inr (by decide)) (.inl rfl) (.inl rfl) (.inl rfl)
theorem EncodesItsRow.fromF32 (vd : RegIdx) : EncodesItsRow.Statement (.fromF32 vd) :=
  encodeFields_masked .fromF32 _ _ _ _ (by decide) (.inr (by decide)) (.inl rfl) (.inl rfl) (.inl rfl)
theorem EncodesItsRow.decMant (vd : RegIdx) : EncodesItsRow.Statement (.decMant vd) :=
  encodeFields_masked .decMant _ _ _ _ (by decide) (.inr (by decide)) (.inl rfl) (.inl rfl) (.inl rfl)
theorem EncodesItsRow.decFfp32 (vd : RegIdx) : EncodesItsRow.Statement (.decFfp32 vd) :=
  encodeFields_masked .decFfp32 _ _ _ _ (by decide) (.inr (by decide)) (.inl rfl) (.inl rfl) (.inl rfl)
theorem EncodesItsRow.decExt80 (vd : RegIdx) : EncodesItsRow.Statement (.decExt80 vd) :=
  encodeFields_masked .decExt80 _ _ _ _ (by decide) (.inr (by decide)) (.inl rfl) (.inl rfl) (.inl rfl)
theorem EncodesItsRow.decQuad128 (vd : RegIdx) : EncodesItsRow.Statement (.decQuad128 vd) :=
  encodeFields_masked .decQuad128 _ _ _ _ (by decide) (.inr (by decide)) (.inl rfl) (.inl rfl) (.inl rfl)
theorem EncodesItsRow.loadRaw (vd : RegIdx) (neg : Bool) : EncodesItsRow.Statement (.loadRaw vd neg) :=
  encodeFields_masked .loadRaw _ _ _ _ (by decide) (.inr (by decide)) (.inl rfl) (.inl rfl) (.inr (by decide))
theorem EncodesItsRow.add (vd va vb : RegIdx) : EncodesItsRow.Statement (.add vd va vb) :=
  encodeFields_masked .add _ _ _ _ (by decide) (.inr (by decide)) (.inr (by decide)) (.inr (by decide)) (.inl rfl)
theorem EncodesItsRow.sub (vd va vb : RegIdx) : EncodesItsRow.Statement (.sub vd va vb) :=
  encodeFields_masked .sub _ _ _ _ (by decide) (.inr (by decide)) (.inr (by decide)) (.inr (by decide)) (.inl rfl)
theorem EncodesItsRow.scaleTo (vd : RegIdx) : EncodesItsRow.Statement (.scaleTo vd) :=
  encodeFields_masked .scaleTo _ _ _ _ (by decide) (.inr (by decide)) (.inl rfl) (.inl rfl) (.inl rfl)
theorem EncodesItsRow.toU64 (va : RegIdx) : EncodesItsRow.Statement (.toU64 va) :=
  encodeFields_masked .toU64 _ _ _ _ (by decide) (.inl rfl) (.inr (by decide)) (.inl rfl) (.inl rfl)
theorem EncodesItsRow.toF64 (va : RegIdx) : EncodesItsRow.Statement (.toF64 va) :=
  encodeFields_masked .toF64 _ _ _ _ (by decide) (.inl rfl) (.inr (by decide)) (.inl rfl) (.inl rfl)

end Sys2Proof.Laws
end

