-- ==== Sys2Proof/Machine/HostProgram.lean ====
section
/-! DEFINITION. The notation of host programs (R86 to R88): a command's assembler line, and the lines of a program and
its pseudo-instructions as the bus accesses they stand for. -/

namespace Sys2Proof.Machine

/-- A command's mnemonic (R84). -/
def mnemonicOf : Opcode → String
  | .createBuffer => "CREATE_BUFFER"
  | .growBuffer => "GROW_BUFFER"
  | .release => "RELEASE"
  | .copy => "COPY"
  | .fromS64 => "FROM_S64"
  | .fromU64 => "FROM_U64"
  | .fromF64 => "FROM_F64"
  | .fromF32 => "FROM_F32"
  | .decMant => "DEC_MANT"
  | .decFfp32 => "DEC_FFP32"
  | .decExt80 => "DEC_EXT80"
  | .decQuad128 => "DEC_QUAD128"
  | .loadRaw => "LOAD_RAW"
  | .add => "ADD"
  | .sub => "SUB"
  | .scaleTo => "SCALE_TO"
  | .toU64 => "TO_U64"
  | .toF64 => "TO_F64"

/-- A register as it is written: `v` and its index in decimal (R86). -/
def asmReg (r : RegIdx) : String := "v" ++ toString r.toNat

/-- The operands of an assembler line, in the order VD, VA, VB, S (R86). -/
def asmOperands : Instr → List String
  | .loadRaw vd neg => [asmReg vd, if neg then "1" else "0"]
  | .copy vd va => [asmReg vd, asmReg va]
  | .add vd va vb => [asmReg vd, asmReg va, asmReg vb]
  | .sub vd va vb => [asmReg vd, asmReg va, asmReg vb]
  | .toU64 va => [asmReg va]
  | .toF64 va => [asmReg va]
  | .createBuffer vd | .growBuffer vd | .release vd | .fromS64 vd | .fromU64 vd | .fromF64 vd | .fromF32 vd
  | .decMant vd | .decFfp32 vd | .decExt80 vd | .decQuad128 vd | .scaleTo vd => [asmReg vd]

/-- A command's assembler line (R86). -/
def asmLine (i : Instr) : String := mnemonicOf i.opcode ++ " " ++ String.intercalate ", " (asmOperands i)

/-- A line of a host program, and the pseudo-instructions of R88. -/
inductive ProgramLine where
  /-- `W addr, data` -/
  | w (addr : Addr) (data : Word)
  /-- `R addr` -/
  | r (addr : Addr)
  /-- a command line -/
  | cmd (i : Instr)
  | setArg (n : Word)
  | setDin (bytes : List Byte)
  | createBuffer (vd : RegIdx) (n : Word)
  | growBuffer (vd : RegIdx) (n : Word)
  | decMant (vd : RegIdx) (w : Word)
  | loadRaw (vd : RegIdx) (neg : Bool) (c : Word)
  | scaleTo (vd : RegIdx) (t : Word)
  | mov (vd va : RegIdx)
  | stat
  | clrStat
  | rdRes
  /-- `RDV vi`, for a register whose LEN is `len` where the line stands (log 15) -/
  | rdv (i : RegIdx) (len : Nat)
deriving DecidableEq, Repr

/-- `W addr, data`: BusWrite(addr, 4, data) (R87). -/
def lineW (addr : Nat) (d : Word) : HostEvent := .write (BitVec.ofNat 12 addr) 4 d

/-- `R addr`: BusRead(addr, 4) (R87). -/
def lineR (addr : Nat) : HostEvent := .read (BitVec.ofNat 12 addr) 4

/-- A command line: a write of its word to CMD (R87). -/
def lineCmd (i : Instr) : HostEvent := .write cmdAddr 4 (encode i)

/-- The DIN words of SETDIN, four bytes a word, bytes past the last counted 0 (R88). -/
def dinLines (bytes : List Byte) : List HostEvent :=
  (List.range ((bytes.length + 3) / 4)).map fun j =>
    lineW (0x100 + 4 * j) (packWord bytes.length bytes j)

/-- The bus accesses that a line stands for (R87, R88). -/
def expandLine : ProgramLine → List HostEvent
  | .w addr d => [.write addr 4 d]
  | .r addr => [.read addr 4]
  | .cmd i => [lineCmd i]
  | .setArg n => [lineW 0x010 n]
  | .setDin bytes => dinLines bytes ++ [lineW 0x014 (BitVec.ofNat 32 bytes.length)]
  | .createBuffer vd n => [lineW 0x010 n, lineCmd (.createBuffer vd)]
  | .growBuffer vd n => [lineW 0x010 n, lineCmd (.growBuffer vd)]
  | .decMant vd w => [lineW 0x010 w, lineCmd (.decMant vd)]
  | .loadRaw vd neg c => [lineW 0x010 c, lineCmd (.loadRaw vd neg)]
  | .scaleTo vd t => [lineW 0x010 t, lineCmd (.scaleTo vd)]
  | .mov vd va => [lineCmd (.copy vd va)]
  | .stat => [lineR 0x00C]
  | .clrStat => [lineW 0x00C 0x00000700#32]
  | .rdRes => [lineR 0x018, lineR 0x01C]
  | .rdv i len =>
    let base := 0x400 + 0x80 * i.toNat
    [lineR base, lineR (base + 0x04)] ++
      (List.range ((len + 3) / 4)).map fun k => lineR (base + 0x40 + 4 * k)

/-- The host events of a program, line by line in order (R87). -/
def expandProgram (lines : List ProgramLine) : List HostEvent := lines.flatMap expandLine

/-- A state whose host runs a program next. -/
def State.withProgram (s : State) (lines : List ProgramLine) : State :=
  { s with pending := expandProgram lines ++ s.pending }

end Sys2Proof.Machine
end

