-- ==== Sys2Proof/Tests/Slice0.lean ====
section
/-! SUPPORT. The model's own tests: every constructor's decoding from a word written out from R80 and R84, an ill-formed
command for each WellFormed check, one-step results taken from spec/95_test_vectors.md (V-..., the examples of the
command rules) or computed by hand from the rule a test names, and for every statement with hypotheses a state and
operands that meet them. -/

namespace Sys2Proof.Tests
open Sys2Proof Sys2Proof.Machine

/-! ### Helpers -/

/-- The bytes `b`, then zeros up to 32. -/
def cells (b : List Byte) : List Byte := b ++ List.replicate (32 - b.length) 0#8

/-- An allocated register with magnitude `b`. -/
def val (sign : Bool) (scale : Word) (b : List Byte) : ValueReg :=
  { alloc := true, len := b.length, sign := sign, scale := scale, mag := cells b }

/-- The reset state with other value registers. -/
def regs (v : List ValueReg) : State :=
  { State.reset with v := v ++ List.replicate (4 - v.length) (ValueReg.empty 32) }

/-- `s` with a byte span in DIN. -/
def din (b : List Byte) (s : State) : State := { s with din := cells b, dinLen := b.length }

/-- `s` with ARG. -/
def arg (n : Word) (s : State) : State := { s with arg := n }

/-- The state after the command word `w`. -/
def after (w : Nat) (s : State) : State :=
  match step (s.withFetchWord 32 w) with
  | .next t => t
  | .fault _ => s
  | .refused _ => s

/-- A state with three registers in use: a positive one of LEN 3 at scale 2, a negative one of LEN 2 at scale 1, an
empty one, and one of LEN 31; 16 bytes in DIN. -/
def demo : State :=
  din [0x81, 0x82, 0x83, 0x84, 0x85, 0x86, 0x87, 0x88, 0x89, 0x8A, 0x8B, 0x8C, 0x8D, 0x8E, 0x8F, 0x90]
    (regs [val false 2 [1, 2, 3], val true 1 [4, 5], ValueReg.empty 32, val false 0 (List.replicate 31 0xFF)])

/-- `demo` is well formed; so is `demo` with another ARG or another host access, which `Wf` does not read. -/
theorem demo_wf : demo.Wf := by decide

/-- `demo` with another DIN_LEN in range is well formed. -/
theorem demo_span_wf (n : Nat) (h : n ≤ 32) : ({ demo with dinLen := n } : State).Wf :=
  ⟨demo_wf.1, demo_wf.2.1, demo_wf.2.2.1, demo_wf.2.2.2.1, h⟩

/-- `demo` with the host's next access. -/
def demoAt (e : HostEvent) : State := { demo with pending := [e] }

/-! ### Decoding: bits 31:21 RSV, 20 S, 19:16 VB, 15:12 VA, 11:8 VD, 7:0 OPC (R80, R84) -/

theorem test_decode_createBuffer : decode 0b00000000000000000000_1111_00000001#32 = .ok (.createBuffer 15) := by decide
theorem test_decode_growBuffer : decode 0b00000000000000000000_0010_00000010#32 = .ok (.growBuffer 2) := by decide
theorem test_decode_release : decode 0b00000000000000000000_0001_00000011#32 = .ok (.release 1) := by decide
theorem test_decode_copy : decode 0b0000000000000000_0010_0001_00000100#32 = .ok (.copy 1 2) := by decide
theorem test_decode_fromS64 : decode 0b00000000000000000000_0011_00010000#32 = .ok (.fromS64 3) := by decide
theorem test_decode_fromU64 : decode 0b00000000000000000000_0101_00010001#32 = .ok (.fromU64 5) := by decide
theorem test_decode_fromF64 : decode 0b00000000000000000000_0110_00010010#32 = .ok (.fromF64 6) := by decide
theorem test_decode_fromF32 : decode 0b00000000000000000000_1010_00010011#32 = .ok (.fromF32 10) := by decide
theorem test_decode_decMant : decode 0b00000000000000000000_0111_00100000#32 = .ok (.decMant 7) := by decide
theorem test_decode_decFfp32 : decode 0b00000000000000000000_1001_00100001#32 = .ok (.decFfp32 9) := by decide
theorem test_decode_decExt80 : decode 0b00000000000000000000_1000_00100010#32 = .ok (.decExt80 8) := by decide
theorem test_decode_decQuad128 : decode 0b00000000000000000000_1100_00100011#32 = .ok (.decQuad128 12) := by decide
theorem test_decode_loadRaw : decode 0b00000000000_1_00000000_0100_00100100#32 = .ok (.loadRaw 4 true) := by decide
theorem test_decode_add : decode 0b000000000000_0011_0010_0001_00110000#32 = .ok (.add 1 2 3) := by decide
theorem test_decode_sub : decode 0b000000000000_0001_1110_0011_00110001#32 = .ok (.sub 3 14 1) := by decide
theorem test_decode_scaleTo : decode 0b00000000000000000000_1011_00111000#32 = .ok (.scaleTo 11) := by decide
theorem test_decode_toU64 : decode 0b0000000000000000_0101_0000_01000000#32 = .ok (.toU64 5) := by decide
theorem test_decode_toF64 : decode 0b0000000000000000_1101_0000_01000001#32 = .ok (.toF64 13) := by decide

/-- The host's reading of a table word. -/
theorem test_decodeTableWord : decodeTableWord 32 0x00010230 = some (.add 2 0 1) ∧ decodeTableWord 32 0 = none := by
  decide

/-! ### WellFormed: P_NV is 4, so v3 exists and v4 does not; each used field is checked (R82) -/

theorem smoke_vd : Instr.wellFormed Config.defaults (.createBuffer 3) = true ∧
    Instr.wellFormed Config.defaults (.createBuffer 4) = false ∧
    Instr.wellFormed Config.defaults (.add 4 3 3) = false := by decide
theorem smoke_va : Instr.wellFormed Config.defaults (.toU64 3) = true ∧
    Instr.wellFormed Config.defaults (.toU64 4) = false ∧ Instr.wellFormed Config.defaults (.copy 0 15) = false ∧
    Instr.wellFormed Config.defaults (.sub 3 4 3) = false := by decide
theorem smoke_vb : Instr.wellFormed Config.defaults (.add 3 3 3) = true ∧
    Instr.wellFormed Config.defaults (.add 0 0 15) = false ∧
    Instr.wellFormed Config.defaults (.sub 3 3 4) = false := by decide

/-! ### One command each (spec/95_test_vectors.md) -/

/-- V-B3: ARG > P_MAXLEN -/
theorem test_V_B3 :
    let s := (arg 33 State.reset)
    let t := after 0x00000001 s
    t.v = s.v ∧ t.status.err = .capacity ∧ t.status.lossy = false := by decide
/-- V-B5: SIGN, SCALE kept (D41) -/
theorem test_V_B5 :
    let s := (arg 3 (regs [val true 0x3 [0xAB, 0xCD]]))
    let t := after 0x00000001 s
    t.reg 0 = val true 0x3 [0x00, 0x00, 0x00] ∧ t.status.err = .ok ∧ t.status.lossy = false := by decide
/-- V-B6: §8 grow example -/
theorem test_V_B6 :
    let s := (arg 8 (regs [val false 0x0 [0x11, 0x22, 0x33, 0x44]]))
    let t := after 0x00000002 s
    t.reg 0 = val false 0x0 [0x11, 0x22, 0x33, 0x44, 0x00, 0x00, 0x00, 0x00] ∧ t.status.err = .ok ∧ t.status.lossy = false := by decide
/-- V-B9: growth beyond P_MAXLEN -/
theorem test_V_B9 :
    let s := (arg 40 (regs [val false 0x0 [0x11, 0x22, 0x33, 0x44]]))
    let t := after 0x00000002 s
    t.v = s.v ∧ t.status.err = .capacity ∧ t.status.lossy = false := by decide
/-- V-B11: VCTL(1) then reads 0 -/
theorem test_V_B11 :
    let s := (regs [ValueReg.empty 32, val true 0x2 [0x01, 0x02, 0x03, 0x04, 0x05, 0x06, 0x07, 0x08]])
    let t := after 0x00000103 s
    t.reg 1 = ValueReg.empty 32 ∧ t.status.err = .ok ∧ t.status.lossy = false := by decide
/-- V-B13: deep copy -/
theorem test_V_B13 :
    let s := (regs [val true 0x3 [0xAB, 0xCD]])
    let t := after 0x00000204 s
    t.reg 2 = val true 0x3 [0xAB, 0xCD] ∧ t.status.err = .ok ∧ t.status.lossy = false := by decide
/-- V-B15: self on empty: no-op, OK (D33) -/
theorem test_V_B15 :
    let s := State.reset
    let t := after 0x00001104 s
    t.v = s.v ∧ t.status.err = .ok ∧ t.status.lossy = false := by decide
/-- V-N2: x = -2^63 -/
theorem test_V_N2 :
    let s := (din [0x00, 0x00, 0x00, 0x00, 0x00, 0x00, 0x00, 0x80] State.reset)
    let t := after 0x00000010 s
    t.reg 0 = val true 0x0 [0x00, 0x00, 0x00, 0x00, 0x00, 0x00, 0x00, 0x80] ∧ t.status.err = .ok ∧ t.status.lossy = false := by decide
/-- V-N5: x = -256: carry ripples -/
theorem test_V_N5 :
    let s := (din [0x00, 0xFF, 0xFF, 0xFF, 0xFF, 0xFF, 0xFF, 0xFF] State.reset)
    let t := after 0x00000010 s
    t.reg 0 = val true 0x0 [0x00, 0x01, 0x00, 0x00, 0x00, 0x00, 0x00, 0x00] ∧ t.status.err = .ok ∧ t.status.lossy = false := by decide
/-- V-N8: verbatim -/
theorem test_V_N8 :
    let s := (din [0xEF, 0xCD, 0xAB, 0x89, 0x67, 0x45, 0x23, 0x01] State.reset)
    let t := after 0x00000011 s
    t.reg 0 = val false 0x0 [0xEF, 0xCD, 0xAB, 0x89, 0x67, 0x45, 0x23, 0x01] ∧ t.status.err = .ok ∧ t.status.lossy = false := by decide
/-- V-N11: -2.5 -/
theorem test_V_N11 :
    let s := (din [0x00, 0x00, 0x00, 0x00, 0x00, 0x00, 0x04, 0xC0] State.reset)
    let t := after 0x00000012 s
    t.reg 0 = val true 0x400 [0x00, 0x00, 0x00, 0x00, 0x00, 0x00, 0x04, 0x00] ∧ t.status.err = .ok ∧ t.status.lossy = false := by decide
/-- V-N15: NaN: no special case -/
theorem test_V_N15 :
    let s := (din [0x01, 0x00, 0x00, 0x00, 0x00, 0x00, 0xF8, 0x7F] State.reset)
    let t := after 0x00000012 s
    t.reg 0 = val false 0x7FF [0x01, 0x00, 0x00, 0x00, 0x00, 0x00, 0x78, 0x00] ∧ t.status.err = .ok ∧ t.status.lossy = false := by decide
/-- V-N18: -2.5f -/
theorem test_V_N18 :
    let s := (din [0x00, 0x00, 0x20, 0xC0] State.reset)
    let t := after 0x00000013 s
    t.reg 0 = val true 0x80 [0x00, 0x00, 0x20, 0x00] ∧ t.status.err = .ok ∧ t.status.lossy = false := by decide
/-- V-N21: span 3 < 4 -/
theorem test_V_N21 :
    let s := (din [0x00, 0x00, 0x80] State.reset)
    let t := after 0x00000013 s
    t.v = s.v ∧ t.status.err = .invalidInput ∧ t.status.lossy = false := by decide
/-- V-M7: §8 odd property: 0xC3 & 0x7F -/
theorem test_V_M7 :
    let s := (din [0xA5, 0x5A, 0xC3] (arg 23 State.reset))
    let t := after 0x00000020 s
    t.reg 0 = val false 0x0 [0xA5, 0x5A, 0x43] ∧ t.status.err = .ok ∧ t.status.lossy = false := by decide
/-- V-M12: BAD_WIDTH before INVALID_INPUT -/
theorem test_V_M12 :
    let s := (din [] (arg 24 State.reset))
    let t := after 0x00000020 s
    t.v = s.v ∧ t.status.err = .badWidth ∧ t.status.lossy = false := by decide
/-- V-D4: reversal; sign 1, exp 0x45 -/
theorem test_V_D4 :
    let s := (din [0x12, 0x34, 0x56, 0xC5] State.reset)
    let t := after 0x00000021 s
    t.reg 0 = val true 0x45 [0x56, 0x34, 0x12, 0x00] ∧ t.status.err = .ok ∧ t.status.lossy = false := by decide
/-- V-D5: span 3 < 4 -/
theorem test_V_D5 :
    let s := (din [0x12, 0x34, 0x56] State.reset)
    let t := after 0x00000021 s
    t.v = s.v ∧ t.status.err = .invalidInput ∧ t.status.lossy = false := by decide
/-- V-D8: sign 1, reversal -/
theorem test_V_D8 :
    let s := (din [0xC0, 0x00, 0xFF, 0xEE, 0xDD, 0xCC, 0xBB, 0xAA, 0x99, 0x88] State.reset)
    let t := after 0x00000022 s
    t.reg 0 = val true 0x4000 [0x88, 0x99, 0xAA, 0xBB, 0xCC, 0xDD, 0xEE, 0x7F, 0x00, 0x00] ∧ t.status.err = .ok ∧ t.status.lossy = false := by decide
/-- V-D10: span 9 < 10 -/
theorem test_V_D10 :
    let s := (din [0x3F, 0xFF, 0xC0, 0x00, 0x00, 0x00, 0x00, 0x00, 0x00] State.reset)
    let t := after 0x00000022 s
    t.v = s.v ∧ t.status.err = .invalidInput ∧ t.status.lossy = false := by decide
/-- V-D14: byte reversal -/
theorem test_V_D14 :
    let s := (din [0x3F, 0xFF, 0x01, 0x02, 0x03, 0x04, 0x05, 0x06, 0x07, 0x08, 0x09, 0x0A, 0x0B, 0x0C, 0x0D, 0x0E] State.reset)
    let t := after 0x00000023 s
    t.reg 0 = val false 0x3FFF [0x0E, 0x0D, 0x0C, 0x0B, 0x0A, 0x09, 0x08, 0x07, 0x06, 0x05, 0x04, 0x03, 0x02, 0x01, 0x00, 0x00] ∧ t.status.err = .ok ∧ t.status.lossy = false := by decide
/-- V-D15: span 15 < 16 -/
theorem test_V_D15 :
    let s := (din (List.replicate 15 0x00) State.reset)
    let t := after 0x00000023 s
    t.v = s.v ∧ t.status.err = .invalidInput ∧ t.status.lossy = false := by decide
/-- V-D17: explicit sign and scale -/
theorem test_V_D17 :
    let s := (din [0x34, 0x12, 0x05] (arg 2 State.reset))
    let t := after 0x00100124 s
    t.reg 1 = val true 0x2 [0x34, 0x12, 0x05] ∧ t.status.err = .ok ∧ t.status.lossy = false := by decide
/-- V-D18: LEN 0, negative zero -/
theorem test_V_D18 :
    let s := (din [] (arg 0 State.reset))
    let t := after 0x00100224 s
    t.reg 2 = val true 0x0 [] ∧ t.status.err = .ok ∧ t.status.lossy = false := by decide
/-- V-A5: scales 1 and 0: align -/
theorem test_V_A5 :
    let s := (regs [val false 0x1 [0x01], val false 0x0 [0x02]])
    let t := after 0x00010230 s
    t.reg 2 = val false 0x1 [0x01, 0x02, 0x00] ∧ t.status.err = .ok ∧ t.status.lossy = false := by decide
/-- V-A12: L+1 = 32 = P_MAXLEN: fits -/
theorem test_V_A12 :
    let s := (regs [val false 0x0 (List.replicate 31 0xFF), val false 0x0 [0x01]])
    let t := after 0x00010230 s
    t.reg 2 = val false 0x0 (List.replicate 31 0x00 ++ [0x01]) ∧ t.status.err = .ok ∧ t.status.lossy = false := by decide
/-- V-A10: borrow: 256 - 1 -/
theorem test_V_A10 :
    let s := (regs [val false 0x0 [0x00, 0x01], val false 0x0 [0x01]])
    let t := after 0x00010231 s
    t.reg 2 = val false 0x0 [0xFF, 0x00, 0x00] ∧ t.status.err = .ok ∧ t.status.lossy = false := by decide
/-- V-A6: x - x = +0, LEN 4 -/
theorem test_V_A6 :
    let s := (regs [val false 0x1 [0x01, 0x02, 0x00]])
    let t := after 0x00000131 s
    t.reg 1 = val false 0x1 [0x00, 0x00, 0x00, 0x00] ∧ t.status.err = .ok ∧ t.status.lossy = false := by decide
/-- V-A18: R187 example: decrease, lossy -/
theorem test_V_A18 :
    let s := (arg 0 (regs [val true 0x2 [0x34, 0x12, 0x05]]))
    let t := after 0x00000038 s
    t.reg 0 = val true 0x0 [0x05] ∧ t.status.err = .ok ∧ t.status.lossy = true := by decide
/-- V-A22: d >= LEN: LEN 0, SIGN kept (-0) -/
theorem test_V_A22 :
    let s := (arg 0 (regs [val true 0x5 [0x07, 0x01]]))
    let t := after 0x00000038 s
    t.reg 0 = val true 0x0 [] ∧ t.status.err = .ok ∧ t.status.lossy = true := by decide
/-- V-C2: S64(-1): wraps, lossy -/
theorem test_V_C2 :
    let s := (regs [val true 0x0 [0x01, 0x00, 0x00, 0x00, 0x00, 0x00, 0x00, 0x00]])
    let t := after 0x00000040 s
    t.res = 0xFFFFFFFFFFFFFFFF#64 ∧ t.status.err = .ok ∧ t.status.lossy = true := by decide
/-- V-C3: 1.5 -> 1, lossy -/
theorem test_V_C3 :
    let s := (regs [val false 0x1 [0x80, 0x01]])
    let t := after 0x00000040 s
    t.res = 0x0000000000000001#64 ∧ t.status.err = .ok ∧ t.status.lossy = true := by decide
/-- V-C11: 2^53+1: truncated -/
theorem test_V_C11 :
    let s := (regs [val false 0x0 [0x01, 0x00, 0x00, 0x00, 0x00, 0x00, 0x20]])
    let t := after 0x00000041 s
    t.res = 0x4340000000000000#64 ∧ t.status.err = .ok ∧ t.status.lossy = true := by decide
/-- The least normal and the greatest power of 2 below it, by hand from R189: 2^-1022 is 4 * 256^-128, and its half,
2 * 256^-128, is subnormal with M = 2^51. -/
theorem test_toF64_boundary : (after 0x41 (regs [val false 128 [4]])).res = 0x0010000000000000#64 ∧
    (after 0x41 (regs [val true 128 [2]])).res = 0x8008000000000000#64 := by decide

/-! ### Host accesses, reset, and the notation of programs -/

/-- Steps 5 and 8 of the bus table L2.8: a wrong size and a misaligned address read 0 and set BUS_ERR (R52). -/
theorem test_illegal_read : ∃ t u, step { State.reset with pending := [.read 0x000 1] } = .next t ∧
    step { State.reset with pending := [.read 0x002 4] } = .next u ∧ t.returned = [0] ∧ u.returned = [0] ∧
    t.status.busErr = true ∧ u.status.busErr = true := ⟨_, _, rfl, rfl, by decide⟩

/-- Step 2 of L2.8: CAP for the default parameters (R36). -/
theorem test_cap : ∃ t, step { State.reset with pending := [.read 0x004 4] } = .next t ∧ t.returned = [0x000A0420] :=
  ⟨_, rfl, by decide⟩

/-- Steps 16 and 14 of L2.8: a DIN word's lanes (R56) and DIN_LEN's limit (R57). -/
theorem test_din : ∃ t u, step { State.reset with pending := [.write 0x100 4 0x44332211] } = .next t ∧
    step { State.reset with pending := [.write 0x014 4 0x1FF] } = .next u ∧ t.din.take 5 = [0x11, 0x22, 0x33, 0x44, 0] ∧
    u.dinLen = 32 := ⟨_, _, rfl, rfl, by decide⟩

/-- V-S6: the write 0x100 to STATUS 0x300 leaves 0x200 (R33). -/
theorem test_status_w1c : ∃ t, step { State.reset with
      status := { Status.clear with stickyErr := true, stickyLossy := true }
      pending := [.write 0x00C 4 0x100] } = .next t ∧ t.status.word = 0x200 := ⟨_, rfl, by decide⟩

/-- VCTL and VSCALE of program P1's V[0] (R53). -/
theorem test_window : ∃ t u, step { regs [val true 0x3FF [0, 0, 0, 0, 0, 0, 0x70, 0]] with
      pending := [.read 0x400 4] } = .next t ∧
    step { regs [val true 0x3FF [0, 0, 0, 0, 0, 0, 0x70, 0]] with pending := [.read 0x444 4] } = .next u ∧
    t.returned = [0x803] ∧ u.returned = [0x00700000] := ⟨_, _, rfl, rfl, by decide⟩

/-- The reset state, reached from a state with registers in use (R240). -/
theorem test_reset : ∃ t, step (demoAt .reset) = .next t ∧ t = State.reset := ⟨_, rfl, by decide⟩

/-- The example lines of R86, and the words they assemble to (R84). -/
theorem test_asm : asmLine (.createBuffer 0) = "CREATE_BUFFER v0" ∧ asmLine (.copy 1 0) = "COPY v1, v0" ∧
    asmLine (.loadRaw 2 true) = "LOAD_RAW v2, 1" ∧ asmLine (.add 2 0 1) = "ADD v2, v0, v1" ∧
    encode (.loadRaw 1 true) = 0x00100124 ∧ encode (.add 2 0 1) = 0x00010230 := by decide

/-- SETDIN and a command with an immediate, expanded as R88 writes them. -/
theorem test_expand : expandProgram [.setDin [0x11, 0x22, 0x33, 0x44, 0x55], .decMant 0 23] =
    [.write 0x100 4 0x44332211, .write 0x104 4 0x55, .write 0x014 4 5, .write 0x010 4 23, .write 0x008 4 0x20] := by
  decide

/-! ### Witnesses: for each statement with hypotheses, states and operands that meet them -/


theorem witness_EncodeInvertsDecode : decode 0x00010331#32 = .ok (.sub 3 0 1) := by decide
theorem witness_OpcodeMapRowsSelectCommands :
    ∃ row ∈ opcodeMap, row.1 = .toF64 ∧ 0x00003041#32 &&& row.2.1 = row.2.2 := by decide
theorem witness_StepRunsTheDecodedCommand : (demoAt (.write 0x008 4 0x301)).pending = .write 0x008#12 4 0x301#32 :: [] ∧
    decode 0x301#32 = .ok (.createBuffer 3) := by decide
/-- No opcode, the lowest and the highest reserved bit, an unused field. -/
theorem witness_IllegalCommandWordChangesOnlyStatus : ∀ w ∈ [0#32, 0x00200001#32, 0x80000011#32, 0x00000540#32],
    (demoAt (.write 0x008 4 w)).pending = .write 0x008#12 4 w :: [] ∧ ∀ row ∈ opcodeMap, w &&& row.2.1 ≠ row.2.2 := by
  simp only [List.mem_cons, List.not_mem_nil, or_false]
  rintro w (rfl | rfl | rfl | rfl) <;> exact ⟨rfl, by decide⟩
theorem witness_MissingRegisterReportsBadReg : (∃ r ∈ Instr.regs (.createBuffer 4), demo.cfg.nv ≤ r.toNat) ∧
    ∃ r ∈ Instr.regs (.add 0 0 15), demo.cfg.nv ≤ r.toNat := by decide
theorem witness_StepWithoutHostAccessIdles : demo.pending = [] := by decide
theorem witness_ResetRestoresEveryRegister : (demoAt .reset).pending = .reset :: [] := by decide
theorem witness_StepKeepsStatesWellFormed : (demoAt (.write 0x008 4 0x00010230)).Wf ∧
    ∃ t, step (demoAt (.write 0x008 4 0x00010230)) = .next t := ⟨demo_wf, _, rfl⟩
theorem witness_IllegalAccessOnlySetsBusErr :
    ∀ x ∈ [((0x000#12 : Addr), 2), (0x001#12, 4), (0xFFF#12, 4), (0x008#12, 8)], (x.2 ≠ 4 ∨ x.1.extractLsb' 0 2 ≠ 0#2) ∧
      (demoAt (.read x.1 x.2)).pending = .read x.1 x.2 :: [] ∧
      (demoAt (.write x.1 x.2 1)).pending = .write x.1 x.2 1#32 :: [] := by decide
/-- Both ends of each unmapped range of R53, with P_NV 4. -/
theorem witness_UnmappedAccessOnlySetsBusErr : demo.cfg.Legal ∧ Unmapped demo.cfg 0x020 ∧ Unmapped demo.cfg 0x0FC ∧
    Unmapped demo.cfg 0x140 ∧ Unmapped demo.cfg 0x3FC ∧ Unmapped demo.cfg 0x408 ∧ Unmapped demo.cfg 0x5BC ∧
    Unmapped demo.cfg 0x600 ∧ Unmapped demo.cfg 0xFFC ∧ (demoAt (.read 0x600 4)).pending = .read 0x600#12 4 :: [] ∧
    (demoAt (.write 0x600 4 1)).pending = .write 0x600#12 4 1#32 :: [] :=
  ⟨by decide, ⟨by decide, .inl (by decide)⟩, ⟨by decide, .inl (by decide)⟩, ⟨by decide, .inr (.inl (by decide))⟩,
    ⟨by decide, .inr (.inl (by decide))⟩, ⟨by decide, .inr (.inr (.inl ⟨0, by decide⟩))⟩,
    ⟨by decide, .inr (.inr (.inl ⟨3, by decide⟩))⟩, ⟨by decide, .inr (.inr (.inr (by decide)))⟩,
    ⟨by decide, .inr (.inr (.inr (by decide)))⟩, by decide, by decide⟩
/-- Each kind of read-only register, the last MAG word among them. -/
theorem witness_ReadOnlyWriteOnlySetsBusErr : demo.cfg.Legal ∧ ReadOnlyAt demo.cfg 0x000 ∧ ReadOnlyAt demo.cfg 0x004 ∧
    ReadOnlyAt demo.cfg 0x018 ∧ ReadOnlyAt demo.cfg 0x01C ∧ ReadOnlyAt demo.cfg 0x400 ∧ ReadOnlyAt demo.cfg 0x584 ∧
    ReadOnlyAt demo.cfg 0x5FC ∧ (demoAt (.write 0x5FC 4 1)).pending = .write 0x5FC#12 4 1#32 :: [] ∧
    (demoAt (.write 0x00C 4 1)).pending = .write 0x00C#12 4 1#32 :: [] ∧
    (demoAt (.read 0x008 4)).pending = .read 0x008#12 4 :: [] :=
  ⟨by decide, .inl rfl, .inr (.inl rfl), .inr (.inr (.inl rfl)), .inr (.inr (.inr (.inl rfl))),
    .inr (.inr (.inr (.inr ⟨0, by decide, .inl rfl⟩))), .inr (.inr (.inr (.inr ⟨3, by decide, .inr (.inl rfl)⟩))),
    .inr (.inr (.inr (.inr ⟨3, by decide, .inr (.inr ⟨15, by decide⟩)⟩))), by decide, by decide, by decide⟩
/-- A state with every sticky flag set, for a STATUS write that clears one and for reset. -/
def sticky (e : HostEvent) : State :=
  { demoAt e with status := { Status.clear with stickyErr := true, stickyLossy := true, busErr := true } }
theorem witness_OnlyStatusWritesAndResetClearStickyFlags :
    (∃ t, step (sticky (.write 0x00C 4 0x100)) = .next t ∧ t.status.stickyErr = false) ∧
    (∃ t, step (sticky (.write 0x00C 4 0x200)) = .next t ∧ t.status.stickyLossy = false) ∧
    (∃ t, step (sticky (.write 0x00C 4 0x400)) = .next t ∧ t.status.busErr = false) ∧
    ∃ t, step (sticky .reset) = .next t ∧ t.status.busErr = false :=
  ⟨⟨_, rfl, by decide⟩, ⟨_, rfl, by decide⟩, ⟨_, rfl, by decide⟩, ⟨_, rfl, by decide⟩⟩
theorem witness_SingleRegistersReadTheirValues :
    ∀ a ∈ [0x000#12, 0x004#12, 0x008#12, 0x010#12, 0x014#12, 0x018#12, 0x01C#12],
      (demoAt (.read a 4)).Wf ∧ (demoAt (.read a 4)).pending = .read a 4 :: [] := fun _ _ => ⟨demo_wf, rfl⟩
theorem witness_StatusReadsItsFields :
    ∀ e ∈ [ErrCode.ok, .illegalCmd, .badReg, .badWidth, .invalidInput, .emptyOperand, .capacity],
      ∃ s : State, s.status.err = e ∧ s.pending = .read 0x00C#12 4 :: [] := fun e _ =>
  ⟨{ demoAt (.read 0x00C 4) with status := { Status.clear with err := e } }, rfl, rfl⟩
/-- The first and the last register, with the first and the last MAG word. -/
theorem witness_ValueRegisterWindowReads : (demoAt (.read 0x5FC 4)).Wf ∧ (3#4).toNat < demo.cfg.nv ∧
    (0x400#12).toNat = 0x400 + 0x80 * (0#4).toNat ∧ (0x584#12).toNat = 0x404 + 0x80 * (3#4).toNat ∧
    (0x440#12).toNat = 0x440 + 0x80 * (0#4).toNat + 4 * 0 ∧ (0x5FC#12).toNat = 0x440 + 0x80 * (3#4).toNat + 4 * 15 ∧
    (demoAt (.read 0x5FC 4)).pending = .read 0x5FC#12 4 :: [] := ⟨demo_wf, by decide⟩
theorem witness_DinWordsPackFourBytes : (demoAt (.write 0x13C 4 7)).Wf ∧ (0x100#12).toNat = 0x100 + 4 * 0 ∧
    (0x13C#12).toNat = 0x100 + 4 * 15 ∧ (demoAt (.write 0x13C 4 7)).pending = .write 0x13C#12 4 7#32 :: [] ∧
    (demoAt (.read 0x100 4)).pending = .read 0x100#12 4 :: [] := ⟨demo_wf, by decide⟩
theorem witness_DinLenWriteStoresTheMinimum : (demoAt (.write 0x014 4 33)).Wf ∧
    (demoAt (.write 0x014 4 33)).pending = .write 0x014#12 4 33#32 :: [] ∧
    (demoAt (.read 0x014 4)).pending = .read 0x014#12 4 :: [] := ⟨demo_wf, by decide⟩
theorem witness_ArgWriteStoresTheWord :
    (demoAt (.write 0x010 4 0xFFFFFFFF)).pending = .write 0x010#12 4 0xFFFFFFFF#32 :: [] := by decide
theorem witness_ReadsHaveNoSideEffect : (demoAt (.read 0x440 4)).pending = .read 0x440#12 4 :: [] ∧
    (demoAt (.read 0x441 3)).pending = .read 0x441#12 3 :: [] := by decide
/-- A write to ARG, and a 2-byte write to CMD. -/
theorem witness_OnlyCommandsWriteResults : ∀ e ∈ [HostEvent.write 0x010 4 5, .write 0x008 2 1],
    (demoAt e).pending = e :: [] ∧ (∃ t, step (demoAt e) = .next t) ∧ (∀ w, e ≠ .write 0x008#12 4 w) ∧ e ≠ .reset := by
  simp only [List.mem_cons, List.not_mem_nil, or_false]
  rintro e (rfl | rfl)
  · exact ⟨rfl, ⟨_, rfl⟩, by simp, by simp⟩
  · exact ⟨rfl, ⟨_, rfl⟩, by simp, by simp⟩

theorem witness_CreateBufferAllocatesZeros : (arg 32 demo).Wf ∧ (3#4).toNat < demo.cfg.nv ∧
    (arg 32 demo).arg.toNat ≤ demo.cfg.maxLen ∧ (arg 33 demo).Wf ∧ demo.cfg.maxLen < (arg 33 demo).arg.toNat :=
  ⟨demo_wf, by decide, by decide, demo_wf, by decide⟩
/-- An empty register, then one of LEN 3 with ARG 3, 4, 32 and 33. -/
theorem witness_GrowBufferKeepsTheMagnitude : (∀ n, (arg n demo).Wf) ∧
    (demo.reg 2).alloc = false ∧ (demo.reg 0).alloc = true ∧ (demo.reg 0).len = 3 ∧ demo.cfg.maxLen = 32 ∧
    (2#4).toNat < demo.cfg.nv := ⟨fun _ => demo_wf, by decide⟩
theorem witness_ReleaseEmptiesTheRegister : (3#4).toNat < demo.cfg.nv := by decide
theorem witness_CopyDuplicatesTheRegister : demo.Wf ∧ (3#4).toNat < demo.cfg.nv ∧ (0#4).toNat < demo.cfg.nv ∧
    (3#4 ≠ 0#4) ∧ (demo.reg 0).alloc = true ∧ (2#4).toNat < demo.cfg.nv ∧ (demo.reg 2).alloc = false :=
  ⟨demo_wf, by decide⟩
theorem witness_CopyIsIndependentOfItsSource : demo.Wf ∧ (2#4).toNat < demo.cfg.nv ∧ (0#4).toNat < demo.cfg.nv ∧
    2#4 ≠ 0#4 ∧ (demo.reg 0).alloc = true ∧
    (∃ t u, exec (.copy 2 0) demo = .next t ∧ exec (.release 0) t = .next u ∧ destOf (.release 0) ≠ some 2) ∧
    ∃ t u, exec (.copy 2 0) demo = .next t ∧ exec (.fromU64 2) t = .next u ∧ destOf (.fromU64 2) = some 2 :=
  ⟨demo_wf, by decide, by decide, by decide, by decide, ⟨_, _, rfl, rfl, by decide⟩, ⟨_, _, rfl, rfl, rfl⟩⟩
theorem witness_ExtractorClearsOnlyTheTopBit :
    (∀ w ∈ [23, 52, 63, 64, 112], (List.replicate ((w + 7) / 8) 0xFF#8).length = (w + 7) / 8) ∧
    (∃ t, exec (.decExt80 3) { demo with cfg := { demo.cfg with extMantW := 63 } } = .next t ∧ t.status.err = .ok) ∧
    ∃ u, exec (.decExt80 3) { demo with cfg := { demo.cfg with extMantW := 64 } } = .next u ∧ u.status.err = .ok :=
  ⟨by decide, ⟨_, rfl, by decide⟩, ⟨_, rfl, by decide⟩⟩
/-- Width 112 with 14 and 13 bytes, and the widths 22 and 24 beside 23. -/
theorem witness_DecMantExtractsTheField : (arg 112 demo).Wf ∧ (3#4).toNat < demo.cfg.nv ∧
    (arg 112 demo).arg.toNat ∈ [23, 52, 63, 64, 112] ∧ ((112 + 7) / 8 ≤ 14 ∧ ¬(112 + 7) / 8 ≤ 13) ∧
    (112 + 7) / 8 ≤ (arg 112 demo).dinLen ∧ { arg 112 demo with dinLen := 13 }.Wf ∧
    (arg 24 demo).arg.toNat ∉ [23, 52, 63, 64, 112] ∧ (arg 22 demo).arg.toNat ∉ [23, 52, 63, 64, 112] :=
  ⟨demo_wf, by decide, by decide, by decide, by decide, demo_span_wf 13 (by decide), by decide, by decide⟩
theorem witness_FromS64StoresSignAndMagnitude : { demo with dinLen := 8 }.Wf ∧ { demo with dinLen := 7 }.Wf ∧
    (3#4).toNat < demo.cfg.nv ∧ 8 ≤ { demo with dinLen := 8 }.dinLen ∧ { demo with dinLen := 7 }.dinLen < 8 :=
  ⟨demo_span_wf 8 (by decide), demo_span_wf 7 (by decide), by decide⟩
theorem witness_FromU64StoresTheBytes : { demo with dinLen := 8 }.Wf ∧ { demo with dinLen := 7 }.Wf ∧
    (3#4).toNat < demo.cfg.nv ∧ 8 ≤ { demo with dinLen := 8 }.dinLen ∧ { demo with dinLen := 7 }.dinLen < 8 :=
  ⟨demo_span_wf 8 (by decide), demo_span_wf 7 (by decide), by decide⟩
theorem witness_FromF64StoresTheFields : { demo with dinLen := 8 }.Wf ∧ { demo with dinLen := 7 }.Wf ∧
    (3#4).toNat < demo.cfg.nv ∧ 8 ≤ { demo with dinLen := 8 }.dinLen ∧ { demo with dinLen := 7 }.dinLen < 8 :=
  ⟨demo_span_wf 8 (by decide), demo_span_wf 7 (by decide), by decide⟩
theorem witness_FromF32StoresTheFields : { demo with dinLen := 4 }.Wf ∧ { demo with dinLen := 3 }.Wf ∧
    (3#4).toNat < demo.cfg.nv ∧ 4 ≤ { demo with dinLen := 4 }.dinLen ∧ { demo with dinLen := 3 }.dinLen < 4 :=
  ⟨demo_span_wf 4 (by decide), demo_span_wf 3 (by decide), by decide⟩
theorem witness_DoubleReassemblyIsExact : demo.Wf ∧ (0#4).toNat < demo.cfg.nv ∧ 8 ≤ demo.dinLen ∧
    leNat (demo.din.take 8) = (0x8887868584838281#64).toNat ∧ ∃ t, exec (.fromF64 0) demo = .next t :=
  ⟨demo_wf, by decide, by decide, by decide, _, rfl⟩
theorem witness_SingleReassemblyIsExact : demo.Wf ∧ (0#4).toNat < demo.cfg.nv ∧ 4 ≤ demo.dinLen ∧
    leNat (demo.din.take 4) = (0x84838281#32).toNat ∧ ∃ t, exec (.fromF32 0) demo = .next t :=
  ⟨demo_wf, by decide, by decide, by decide, _, rfl⟩
theorem witness_DecFfp32StoresTheFields : { demo with dinLen := 4 }.Wf ∧ { demo with dinLen := 3 }.Wf ∧
    (3#4).toNat < demo.cfg.nv ∧ 4 ≤ { demo with dinLen := 4 }.dinLen ∧ { demo with dinLen := 3 }.dinLen < 4 :=
  ⟨demo_span_wf 4 (by decide), demo_span_wf 3 (by decide), by decide⟩
theorem witness_DecExt80StoresTheFields : { demo with dinLen := 10 }.Wf ∧ { demo with dinLen := 9 }.Wf ∧
    (3#4).toNat < demo.cfg.nv ∧ 10 ≤ { demo with dinLen := 10 }.dinLen ∧ { demo with dinLen := 9 }.dinLen < 10 :=
  ⟨demo_span_wf 10 (by decide), demo_span_wf 9 (by decide), by decide⟩
theorem witness_DecQuad128StoresTheFields : { demo with dinLen := 16 }.Wf ∧ { demo with dinLen := 15 }.Wf ∧
    (3#4).toNat < demo.cfg.nv ∧ 16 ≤ { demo with dinLen := 16 }.dinLen ∧ { demo with dinLen := 15 }.dinLen < 16 :=
  ⟨demo_span_wf 16 (by decide), demo_span_wf 15 (by decide), by decide⟩
theorem witness_LoadRawStoresTheSpan : { demo with dinLen := 0 }.Wf ∧ { demo with dinLen := 32 }.Wf ∧
    (3#4).toNat < demo.cfg.nv := ⟨demo_span_wf 0 (by decide), demo_span_wf 32 (by decide), by decide⟩
theorem witness_AlignMultipliesByThePadding : (demo.reg 0).Wf 32 ∧ (demo.reg 0).scale.toNat ≤ 2 ∧
    (demo.reg 0).scale.toNat ≤ 5 := ⟨demo_wf.2.2.1 _ (by decide), by decide⟩
theorem witness_MagSubIsExact : leNat [0xFF#8] ≤ leNat [0x00#8, 0x01#8] ∧ leNat [5#8] ≤ leNat [5#8, 0#8] := by decide

/-- `demo` with V[3] of LEN `n`. -/
def wide (n : Nat) : State := regs [val false 2 [1, 2, 3], val true 1 [4, 5], ValueReg.empty 32,
  val true 0 (List.replicate n 0xFF)]
theorem wide_31_wf : (wide 31).Wf := by decide
theorem wide_32_wf : (wide 32).Wf := by decide
/-- A sum of 32 bytes, one of 33, an empty left and an empty right source. -/
theorem witness_AddWritesTheExactSum : (wide 31).Wf ∧ (wide 32).Wf ∧ (3#4).toNat < (wide 31).cfg.nv ∧
    ((wide 31).reg 3).alloc = true ∧ sumRoom ((wide 31).reg 3) ((wide 31).reg 3) = 32 ∧ (wide 31).cfg.maxLen = 32 ∧
    ((wide 32).reg 3).alloc = true ∧ sumRoom ((wide 32).reg 3) ((wide 32).reg 3) = 33 ∧
    sumRoom ((wide 31).reg 0) ((wide 31).reg 1) ≤ 32 ∧ ((wide 31).reg 2).alloc = false :=
  ⟨wide_31_wf, wide_32_wf, by decide⟩
theorem witness_SubWritesTheExactDifference : (wide 31).Wf ∧ (wide 32).Wf ∧ (1#4).toNat < (wide 31).cfg.nv ∧
    ((wide 31).reg 1).alloc = true ∧ ((wide 31).reg 0).alloc = true ∧
    sumRoom ((wide 31).reg 0) ((wide 31).reg 1) ≤ (wide 31).cfg.maxLen ∧
    (wide 32).cfg.maxLen < sumRoom ((wide 32).reg 3) ((wide 32).reg 1) ∧ ((wide 31).reg 2).alloc = false :=
  ⟨wide_31_wf, wide_32_wf, by decide⟩
theorem witness_AddAndSubAreExactOnValues : demo.Wf ∧
    (∃ t, exec (.add 2 0 1) demo = .next t ∧ t.status.err = .ok) ∧
    ∃ t, exec (.sub 0 0 1) demo = .next t ∧ t.status.err = .ok :=
  ⟨demo_wf, ⟨_, rfl, by decide⟩, ⟨_, rfl, by decide⟩⟩
/-- V[0], of LEN 3 at scale 2, to the scales 2, 3, 31 (32 bytes), 32 (33 bytes), 1 and 0; and an empty register. -/
theorem witness_ScaleToShiftsTheMagnitude : (∀ n, (arg n demo).Wf) ∧
    (demo.reg 0).alloc = true ∧ (demo.reg 0).scale = 2 ∧ (demo.reg 0).len + (31 - 2) = demo.cfg.maxLen ∧
    demo.cfg.maxLen < (demo.reg 0).len + (32 - 2) ∧ (demo.reg 2).alloc = false ∧ (2#4).toNat < demo.cfg.nv :=
  ⟨fun _ => demo_wf, by decide⟩
theorem witness_ToU64ReturnsTheIntegerPart : demo.Wf ∧ (2#4).toNat < demo.cfg.nv ∧ (demo.reg 1).alloc = true ∧
    (demo.reg 2).alloc = false := ⟨demo_wf, by decide⟩
theorem witness_IntegersRoundTripThroughRes : demo.Wf ∧ (2#4).toNat < demo.cfg.nv ∧ 8 ≤ demo.dinLen ∧
    (∃ t u, exec (.fromU64 2) demo = .next t ∧ exec (.toU64 2) t = .next u) ∧
    ∃ t u, exec (.fromS64 2) demo = .next t ∧ exec (.toU64 2) t = .next u :=
  ⟨demo_wf, by decide, by decide, ⟨_, _, rfl, rfl⟩, ⟨_, _, rfl, rfl⟩⟩
/-- A magnitude of 0 and one that is not, and an empty register. -/
theorem witness_ToF64RoundsTowardZero : (regs [val true 3 [0], val false 128 [4]]).Wf ∧
    (1#4).toNat < (regs [val true 3 [0], val false 128 [4]]).cfg.nv ∧
    ((val true 3 [0]).magNat : ℚ) / 256 ^ (val true 3 [0]).scale.toNat = 0 ∧
    ((val false 128 [4]).magNat : ℚ) / 256 ^ (val false 128 [4]).scale.toNat ≠ 0 ∧ (demo.reg 2).alloc = false :=
  ⟨by decide, by decide, by rw [show (val true 3 [0]).magNat = 0 by decide]; simp,
    by rw [show (val false 128 [4]).magNat = 4 by decide]; positivity, by decide⟩
/-- A rejected word, and a command with an empty source. -/
theorem witness_FailedCommandChangesOnlyStatus : ∀ w ∈ [0x000000FF#32, 0x00002040#32],
    (demoAt (.write 0x008 4 w)).pending = .write 0x008#12 4 w :: [] ∧
    ∃ t, step (demoAt (.write 0x008 4 w)) = .next t ∧ t.status.err ≠ .ok := by
  simp only [List.mem_cons, List.not_mem_nil, or_false]
  rintro w (rfl | rfl)
  · exact ⟨rfl, _, rfl, by decide⟩
  · exact ⟨rfl, _, rfl, by decide⟩
theorem witness_CompletedCommandStatus : (demoAt (.write 0x008 4 0x38)).pending = .write 0x008#12 4 0x38#32 :: [] ∧
    ∃ t, step (demoAt (.write 0x008 4 0x38)) = .next t ∧ t.status.err = .ok ∧ t.status.lossy = true :=
  ⟨rfl, _, rfl, by decide⟩
theorem witness_OnlyRescaleAndNarrowingAreLossy : ∃ t, exec (.scaleTo 0) demo = .next t ∧ t.status.lossy = true :=
  ⟨_, rfl, by decide⟩
/-- DEC_MANT of a missing register with ARG 24 and no span (V-P2): three errors apply. -/
theorem witness_ReportedErrorIsTheLowest :
    ∃ s : State, s.pending = .write 0x008#12 4 0x720#32 :: [] ∧ (∃ t, step s = .next t ∧ t.status.err = .badReg) ∧
      WordErrorApplies 0x720 s .badReg ∧ WordErrorApplies 0x720 s .badWidth ∧ WordErrorApplies 0x720 s .invalidInput :=
  ⟨{ State.reset with arg := 24, pending := [.write 0x008 4 0x720] }, rfl, ⟨_, rfl, by decide⟩,
    ⟨.decMant 7, by decide, 7, by decide⟩, ⟨.decMant 7, by decide, ⟨7, rfl⟩, by decide⟩,
    ⟨.decMant 7, by decide, show _ < _ by decide⟩⟩
theorem witness_CommandsChangeOnlyTheirResults : ∃ t, exec (.add 2 0 1) demo = .next t := ⟨_, rfl⟩
theorem witness_OnlyReleaseAndResetClearAlloc : (demo.reg 0).alloc = true ∧
    (∃ t, step (demoAt (.write 0x008 4 0x003)) = .next t ∧ (t.reg 0).alloc = false) ∧
    ∃ t, step (demoAt .reset) = .next t ∧ (t.reg 0).alloc = false :=
  ⟨by decide, ⟨_, rfl, by decide⟩, ⟨_, rfl, by decide⟩⟩

end Sys2Proof.Tests
end

section
/-! The state invariant (R6, R21, R22, R23, R28): the reset state meets it (O10), and every step keeps it (O11).
`Answers P r` is the one notion both levels of the step lemma speak in: the guards of R82 and R221 pass it through, so
each command's proof is its chain of guards and the one state it ends in. -/

namespace Sys2Proof.Machine

/-- Every next state that `r` answers satisfies `P`. No result of the model is anything but a next state (log 8), so
nothing is lost where `r` is not one. -/
def Answers (P : State → Prop) (r : Result) : Prop := ∀ t, r = .next t → P t

@[simp] theorem answers_next {P : State → Prop} {s : State} : Answers P (.next s) ↔ P s :=
  ⟨fun h => h s rfl, fun h _ e => Host.Outcome.next.inj e ▸ h⟩

@[simp] theorem answers_raiseError {P : State → Prop} {s : State} {e : ErrCode} :
    Answers P (raiseError e s) ↔ P (s.failed e) := by
  rw [raiseError_eq, answers_next]

@[simp] theorem answers_complete {P : State → Prop} {s : State} {l : Bool} :
    Answers P (complete l s) ↔ P (s.completed l) := by
  rw [complete_eq, answers_next]

section Guards
/-! A guard fails with its error or goes on, and then its condition holds. -/
variable {P : State → Prop} {s : State} {k : Result}

theorem answers_withRegs {rs : List RegIdx} (hf : P (s.failed .badReg))
    (hk : (∀ r ∈ rs, r.toNat < s.cfg.nv) → Answers P k) : Answers P (withRegs rs s k) := by
  obtain ⟨hreg, hgo⟩ | ⟨-, hfail⟩ := withRegs_cases rs s k
  · rw [hgo]; exact hk hreg
  · rw [hfail, answers_next]; exact hf

theorem answers_withSources {rs : List RegIdx} (hf : P (s.failed .emptyOperand))
    (hk : (∀ r ∈ rs, (s.reg r).alloc = true) → Answers P k) : Answers P (withSources rs s k) := by
  obtain ⟨hsrc, hgo⟩ | ⟨-, hfail⟩ := withSources_cases rs s k
  · rw [hgo]; exact hk hsrc
  · rw [hfail, answers_next]; exact hf

theorem answers_withCapacity {n : Nat} (hf : P (s.failed .capacity))
    (hk : n ≤ s.cfg.maxLen → Answers P k) : Answers P (withCapacity n s k) := by
  obtain ⟨hroom, hgo⟩ | ⟨-, hfail⟩ := withCapacity_cases n s k
  · rw [hgo]; exact hk hroom
  · rw [hfail, answers_next]; exact hf

theorem answers_withSpan {n : Nat} (hf : P (s.failed .invalidInput))
    (hk : n ≤ s.dinLen → Answers P k) : Answers P (withSpan n s k) := by
  obtain ⟨hspan, hgo⟩ | ⟨-, hfail⟩ := withSpan_cases n s k
  · rw [hgo]; exact hk hspan
  · rw [hfail, answers_next]; exact hf
end Guards

/-- The reset state of a block with legal parameters is well formed (R240). -/
theorem resetWith_wf {p : Params} (hp : p.Legal) : (State.resetWith p).Wf := by
  refine ⟨hp, List.length_replicate, fun r hr => ?_, List.length_replicate, Nat.zero_le _⟩
  rw [List.eq_of_mem_replicate hr]
  exact empty_wf p.maxLen

/-- The defaults of R6 are legal. -/
theorem defaults_legal : Config.defaults.Legal := by decide

section Commands
/-! Every command keeps the invariant: each length it commits fits P_MAXLEN, because a guard checked it, because it is
the LEN of a register or DIN_LEN, or because it is a format's length and P_MAXLEN is at least 16 (R6). -/
variable {s : State}

/-- P_MAXLEN is at least 16: what bounds the length of every fixed format (R6). -/
theorem sixteen_le_maxLen (h : s.Wf) : 16 ≤ s.cfg.maxLen := by
  obtain ⟨⟨-, ⟨hmax, -⟩, -⟩, -⟩ := h
  exact hmax

theorem extLen_le_maxLen (h : s.Wf) : s.cfg.extLen ≤ s.cfg.maxLen := by
  obtain ⟨⟨-, ⟨hmax, -⟩, hext, -⟩, -⟩ := h
  omega

theorem len_le_maxLen (h : s.Wf) (i : RegIdx) : (s.reg i).len ≤ s.cfg.maxLen := by
  obtain ⟨-, hlen, -⟩ := reg_wf h i
  exact hlen

/-- The widest legal mantissa, 112 bits, has 14 bytes (R120). -/
theorem fieldBytes_le_of_legal {w : Nat} (hw : legalWidths.contains w = true) : fieldBytes w ≤ 14 := by
  simp only [legalWidths, List.contains_iff_mem, List.mem_cons, List.not_mem_nil, or_false] at hw
  unfold fieldBytes
  omega

/-- A command that ends by committing a length that fits. -/
theorem complete_commit_wf (h : s.Wf) {vd : RegIdx} {n : Nat} {l sg : Bool} {sc : Word} {b : List Byte}
    (hn : n ≤ s.cfg.maxLen) : Answers State.Wf (complete l (commit vd n sg sc b s)) :=
  answers_complete.mpr (completed_wf (commit_wf h vd sg sc b hn) l)

/-- The shape of the native constructors and of the format decoders (R141 to R144, R162 to R164). -/
theorem format_wf (h : s.Wf) {vd : RegIdx} {k n : Nat} {sg : Bool} {sc : Word} {b : List Byte}
    (hn : n ≤ s.cfg.maxLen) :
    Answers State.Wf (withRegs [vd] s <| withSpan k s <| complete false (commit vd n sg sc b s)) :=
  answers_withRegs (failed_wf h _) fun _ => answers_withSpan (failed_wf h _) fun _ => complete_commit_wf h hn

theorem execCreateBuffer_wf (h : s.Wf) (vd : RegIdx) : Answers State.Wf (execCreateBuffer vd s) :=
  answers_withRegs (failed_wf h _) fun _ => answers_withCapacity (failed_wf h _) fun hn => complete_commit_wf h hn

theorem execGrowBuffer_wf (h : s.Wf) (vd : RegIdx) : Answers State.Wf (execGrowBuffer vd s) := by
  refine answers_withRegs (failed_wf h _) fun _ => ?_
  have hroom {sg : Bool} {sc : Word} {b : List Byte} : Answers State.Wf
      (withCapacity s.argNat s <| complete false (commit vd s.argNat sg sc b s)) :=
    answers_withCapacity (failed_wf h _) fun hn => complete_commit_wf h hn
  dsimp only
  split_ifs
  · exact hroom
  · exact answers_complete.mpr (completed_wf h _)
  · exact hroom

theorem execRelease_wf (h : s.Wf) (vd : RegIdx) : Answers State.Wf (execRelease vd s) :=
  answers_withRegs (failed_wf h _) fun _ =>
    answers_complete.mpr (completed_wf (setReg_wf h vd (empty_wf _)) _)

theorem execCopy_wf (h : s.Wf) (vd va : RegIdx) : Answers State.Wf (execCopy vd va s) := by
  refine answers_withRegs (failed_wf h _) fun _ => ?_
  split_ifs
  · exact answers_complete.mpr (completed_wf h _)
  · exact answers_withSources (failed_wf h _) fun _ => complete_commit_wf h (len_le_maxLen h va)

theorem execDecMant_wf (h : s.Wf) (vd : RegIdx) : Answers State.Wf (execDecMant vd s) := by
  refine answers_withRegs (failed_wf h _) fun _ => ?_
  dsimp only
  split_ifs with hw
  · exact answers_raiseError.mpr (failed_wf h _)
  · have hfit : fieldBytes s.argNat ≤ s.cfg.maxLen :=
      calc fieldBytes s.argNat ≤ 14 := fieldBytes_le_of_legal ((Bool.not_eq_false _).mp hw)
        _ ≤ 16 := by decide
        _ ≤ s.cfg.maxLen := sixteen_le_maxLen h
    exact answers_withSpan (failed_wf h _) fun _ => complete_commit_wf h hfit

theorem execLoadRaw_wf (h : s.Wf) (vd : RegIdx) (neg : Bool) : Answers State.Wf (execLoadRaw vd neg s) := by
  have ⟨_, _, _, _, hspan⟩ := h
  exact answers_withRegs (failed_wf h _) fun _ => complete_commit_wf h hspan

/-- The carry register is not in the invariant (R37). -/
theorem complete_commit_carry_wf (h : s.Wf) {vd : RegIdx} {n : Nat} {l sg : Bool} {sc : Word} {b : List Byte}
    {c : BitVec 9} (hn : n ≤ s.cfg.maxLen) :
    Answers State.Wf (complete l { commit vd n sg sc b s with carry := c }) :=
  answers_complete.mpr (commit_wf h vd sg sc b hn)

/-- ADD and SUB: CAPACITY was checked for the very length they commit (R184). -/
theorem addSigned_wf (h : s.Wf) (vd va vb : RegIdx) (sb : Bool) : Answers State.Wf (addSigned vd va vb sb s) :=
  answers_withSources (failed_wf h _) fun _ => answers_withCapacity (failed_wf h _) fun hn =>
    complete_commit_carry_wf h hn

/-- SCALE_TO: an increase checks CAPACITY, a decrease only shortens LEN (R187). -/
theorem execScaleTo_wf (h : s.Wf) (vd : RegIdx) : Answers State.Wf (execScaleTo vd s) := by
  refine answers_withRegs (failed_wf h _) fun _ => answers_withSources (failed_wf h _) fun _ => ?_
  dsimp only
  split_ifs
  · exact answers_complete.mpr (completed_wf h _)
  · exact answers_withCapacity (failed_wf h _) fun hn => complete_commit_wf h hn
  · exact complete_commit_wf h ((Nat.sub_le _ _).trans (len_le_maxLen h vd))

/-- The shape of TO_U64 and TO_F64: RES and STATUS are not in the invariant (R188, R189). -/
theorem narrow_wf (h : s.Wf) {va : RegIdx} {l : Bool} {d : DWord} :
    Answers State.Wf (withRegs [va] s <| withSources [va] s <| complete l { s with res := d }) :=
  answers_withRegs (failed_wf h _) fun _ => answers_withSources (failed_wf h _) fun _ =>
    answers_complete.mpr h

/-- Every command keeps a state well formed (R23). -/
theorem exec_wf (h : s.Wf) (i : Instr) : Answers State.Wf (exec i s) := by
  have hmax := sixteen_le_maxLen h
  cases i with
  | createBuffer vd => exact execCreateBuffer_wf h vd
  | growBuffer vd => exact execGrowBuffer_wf h vd
  | release vd => exact execRelease_wf h vd
  | copy vd va => exact execCopy_wf h vd va
  | fromS64 vd => exact format_wf h (by omega)
  | fromU64 vd => exact format_wf h (by omega)
  | fromF64 vd => exact format_wf h (by omega)
  | fromF32 vd => exact format_wf h (by omega)
  | decMant vd => exact execDecMant_wf h vd
  | decFfp32 vd => exact format_wf h (by omega)
  | decExt80 vd => exact format_wf h (extLen_le_maxLen h)
  | decQuad128 vd => exact format_wf h hmax
  | loadRaw vd neg => exact execLoadRaw_wf h vd neg
  | add vd va vb => exact answers_withRegs (failed_wf h _) fun _ => addSigned_wf h vd va vb _
  | sub vd va vb => exact answers_withRegs (failed_wf h _) fun _ => addSigned_wf h vd va vb _
  | scaleTo vd => exact execScaleTo_wf h vd
  | toU64 va => exact narrow_wf h
  | toF64 va => exact narrow_wf h
end Commands

section HostAccesses
/-! Every host event keeps the invariant. -/
variable {s : State}

/-- A command word, accepted or rejected, keeps a state well formed (R82, R85). -/
theorem runCommand_wf (h : s.Wf) (w : Word) : Answers State.Wf (runCommand w s) := by
  cases hd : decode w with
  | error e => rw [runCommand_error hd, answers_next]; exact failed_wf h _
  | ok i => rw [runCommand_ok hd]; exact exec_wf h i

/-- BUS_ERR is not in the invariant (R226). -/
theorem busError_wf (h : s.Wf) : (busError s).Wf := h

/-- What a read returns is not in the invariant (R50). -/
theorem deliver_wf (h : s.Wf) (d : Word) : (deliver d s).Wf := h

theorem busRead_wf (h : s.Wf) (a : Addr) (n : Nat) : (busRead a n s).Wf := by
  obtain ⟨r, -, -, heq⟩ | ⟨-, heq⟩ := busRead_cases a n s
  · rw [heq]; exact deliver_wf h _
  · rw [heq]; exact deliver_wf (busError_wf h) _

/-- A register write keeps a state well formed: a DIN write keeps DIN's cells (R56), a DIN_LEN write stores at most
P_MAXLEN (R57), and no other write reaches a field of the invariant. -/
theorem writeReg_wf (h : s.Wf) (d : Word) (r : WindowReg) : (writeReg d s r).Wf := by
  have ⟨hcfg, hnv, hv, hdin, hspan⟩ := h
  cases r with
  | din k => exact ⟨hcfg, hnv, hv, (length_unpackWord _ _ _ _).trans hdin, hspan⟩
  | dinLen => exact ⟨hcfg, hnv, hv, hdin, Nat.min_le_right _ _⟩
  | status | arg | cmd => exact h
  | id | cap | resLo | resHi | vctl | vscale | mag => exact busError_wf h

theorem busWrite_wf (h : s.Wf) (a : Addr) (n : Nat) (d : Word) : Answers State.Wf (busWrite a n d s) := by
  obtain ⟨-, -, heq⟩ | ⟨r, -, -, -, heq⟩ | ⟨-, heq⟩ := busWrite_cases a n d s
  · rw [heq]; exact runCommand_wf h d
  · rw [heq, answers_next]; exact writeReg_wf h d r
  · rw [heq, answers_next]; exact busError_wf h

/-- Reset needs of the state before it only that its parameters are legal (R240). -/
theorem assertReset_wf (hp : s.cfg.Legal) : (assertReset s).Wf := resetWith_wf hp

theorem hostEvent_wf (h : s.Wf) (e : HostEvent) : Answers State.Wf (hostEvent e s) := by
  cases e with
  | read a n => exact answers_next.mpr (busRead_wf h a n)
  | write a n d => exact busWrite_wf h a n d
  | reset => exact answers_next.mpr (assertReset_wf h.1)

/-- The accesses still pending are not in the invariant, so one step is one host event of a well-formed state. -/
theorem step_wf (h : s.Wf) : Answers State.Wf (step s) := by
  cases hp : s.pending with
  | nil => rw [step, serveHost, hp]; exact answers_next.mpr h
  | cons e rest => rw [step_cons hp]; exact hostEvent_wf (s := { s with pending := rest }) h e
end HostAccesses

/-- Settles O10: the reset state is the well-formed one of `resetWith_wf` at the legal defaults of R6. -/
theorem resetStateIsWellFormed : Obligations.ResetStateIsWellFormed :=
  ⟨resetWith_wf defaults_legal, rfl, rfl, rfl⟩

/-- Settles O11: the invariant passes from the host's event (`hostEvent_wf`) through the decoder (`runCommand_wf`) to
each command (`exec_wf`), where every committed length fits P_MAXLEN. -/
theorem stepKeepsStatesWellFormed : Obligations.StepKeepsStatesWellFormed :=
  fun _ t h hstep => step_wf h t hstep

end Sys2Proof.Machine
end

section
/-! What a host access and a command can do to the state (10_state.md), said once each, and what follows from it: the
frame of every command (O58), who clears sticky flags (O16) and ALLOC (O59), who writes results (O24), and what the
single registers of the window read and store (O5, O17, O18, O22).
`CommandEffect` and `HostEffect` list the possible next states; `exec_effect` and `step_effect` tie them to the model,
so that no proof after those two walks through a meaning's branches. -/

namespace Sys2Proof.Machine

section Accesses
/-! A legal access to a mapped register (R52, R53). -/
variable {s : State} {a : Addr} {r : WindowReg} {d : Word} {rest : List HostEvent}

/-- The one legal size (R52). -/
theorem size_eq_of_legalAccess {n : Nat} (h : legalAccess a n = true) : n = 4 := by
  simp only [legalAccess, Bool.and_eq_true, beq_iff_eq] at h
  exact h.1

theorem busRead_of_regAt (ha : legalAccess a 4 = true) (hr : regAt s.cfg a = some r) :
    busRead a 4 s = deliver (readReg s r) s := by
  obtain ⟨r', -, hr', heq⟩ | ⟨hno | hno, -⟩ := busRead_cases a 4 s
  · rw [hr] at hr'; cases hr'; exact heq
  · rw [ha] at hno; cases hno
  · rw [hr] at hno; cases hno

theorem busWrite_of_regAt (ha : legalAccess a 4 = true) (hr : regAt s.cfg a = some r) (hc : r ≠ .cmd) :
    busWrite a 4 d s = .next (writeReg d s r) := by
  obtain ⟨-, hcmd, -⟩ | ⟨r', -, -, hr', heq⟩ | ⟨hno | hno, -⟩ := busWrite_cases a 4 d s
  · rw [hr] at hcmd; cases hcmd; exact absurd rfl hc
  · rw [hr] at hr'; cases hr'; exact heq
  · rw [ha] at hno; cases hno
  · rw [hr] at hno; cases hno

/-- A write to CMD runs its word (R34). -/
theorem busWrite_cmd : busWrite 0x008#12 4 d s = runCommand d s := by
  obtain ⟨-, -, heq⟩ | ⟨r', hc, -, hr', -⟩ | ⟨hno | hno, -⟩ := busWrite_cases 0x008#12 4 d s
  · exact heq
  · rw [regAt_cmd] at hr'; cases hr'; exact absurd rfl hc
  · cases hno
  · rw [regAt_cmd] at hno; cases hno

/-- A step that reads a register returns its value, which does not depend on the accesses still pending (R60). -/
theorem step_read (hp : s.pending = .read a 4 :: rest) (ha : legalAccess a 4 = true) (hr : regAt s.cfg a = some r)
    (hd : readReg s r = d) : step s = .next { s with pending := rest, returned := s.returned ++ [d] } := by
  have hsame : readReg { s with pending := rest } r = readReg s r := by cases r <;> rfl
  rw [step_cons hp, hostEvent, busRead_of_regAt (s := { s with pending := rest }) ha hr, hsame, hd]
  rfl

theorem step_write (hp : s.pending = .write a 4 d :: rest) (ha : legalAccess a 4 = true) (hr : regAt s.cfg a = some r)
    (hc : r ≠ .cmd) : step s = .next (writeReg d { s with pending := rest } r) := by
  rw [step_cons hp, hostEvent]
  exact busWrite_of_regAt (s := { s with pending := rest }) ha hr hc
end Accesses

section Fields
/-! A register word is the sum of its fields at their places, where the fields do not overlap (R32, R36). -/

/-- The field `y` from bit `k` on, above the fields `x` below bit `k`. -/
theorem ofNat_or_shiftLeft {x k : Nat} (y : Nat) (hx : x < 2 ^ k) :
    BitVec.ofNat 32 x ||| (BitVec.ofNat 32 y <<< k) = BitVec.ofNat 32 (x + 2 ^ k * y) := by
  have hsum : x + 2 ^ k * y = x ||| y <<< k := by
    rw [Nat.add_comm, Nat.two_pow_add_eq_or_of_lt hx, Nat.lor_comm, Nat.shiftLeft_eq, Nat.mul_comm]
  have hshift : BitVec.ofNat 32 (y <<< k) = BitVec.ofNat 32 y <<< k := by
    apply BitVec.eq_of_toNat_eq
    simp [Nat.shiftLeft_eq]
  rw [hsum, BitVec.ofNat_or, hshift]

theorem bitAt_eq (n : Nat) (b : Bool) : bitAt n b = BitVec.ofNat 32 b.toNat <<< n := by
  cases b <;> rfl

theorem errCode_lt (e : ErrCode) : e.code < 2 ^ 4 := by cases e <;> decide

/-- STATUS as a sum of fields (R32). -/
theorem statusWord_eq (st : Status) : st.word = BitVec.ofNat 32 (st.err.code + 2 ^ 4 * st.lossy.toNat +
    2 ^ 8 * st.stickyErr.toNat + 2 ^ 9 * st.stickyLossy.toNat + 2 ^ 10 * st.busErr.toNat) := by
  have herr := errCode_lt st.err
  have hlossy := st.lossy.toNat_le
  have hse := st.stickyErr.toNat_le
  have hsl := st.stickyLossy.toNat_le
  simp only [Status.word, bitAt_eq]
  rw [ofNat_or_shiftLeft _ herr, ofNat_or_shiftLeft _ (by omega), ofNat_or_shiftLeft _ (by omega),
    ofNat_or_shiftLeft _ (by omega)]

/-- CAP as a sum of fields: legal parameters do not overlap (R6, R36). -/
theorem capWord_eq {p : Params} (h : p.Legal) : capWord p = BitVec.ofNat 32 (p.maxLen + 2 ^ 8 * p.nv +
    2 ^ 16 * p.extLen + 2 ^ 20 * (if p.extMantW = 64 then 1 else 0)) := by
  obtain ⟨hnv, hmax, hext, -⟩ := h
  have hwide : (p.extMantW == 64).toNat = if p.extMantW = 64 then 1 else 0 := by
    split_ifs with hw <;> simp [hw]
  simp only [capWord, bitAt_eq]
  rw [ofNat_or_shiftLeft _ (by omega), ofNat_or_shiftLeft _ (by omega), ofNat_or_shiftLeft _ (by omega), hwide]

theorem extractLsb'_eq_ofNat (x : DWord) (k : Nat) : x.extractLsb' k 32 = BitVec.ofNat 32 (x.toNat / 2 ^ k) := by
  rw [← Nat.shiftRight_eq_div_pow]; rfl
end Fields

/-- Settles O5: CMD is the register at 0x008 (`busWrite_cmd`), and a word that decodes runs its command. -/
theorem stepRunsTheDecodedCommand : Obligations.StepRunsTheDecodedCommand := by
  intro s w i rest hp hd
  rw [step_cons hp, hostEvent, busWrite_cmd, runCommand_ok hd]

/-- Settles O17: each address is its register's, and CAP is the word of `capWord_eq`, whose fields legality keeps
apart. -/
theorem singleRegistersReadTheirValues : Obligations.SingleRegistersReadTheirValues := by
  intro s rest ⟨hcfg, _⟩ row hrow
  simp only [List.mem_cons, List.not_mem_nil, or_false] at hrow
  have hlo : readReg s .resLo = BitVec.ofNat 32 (s.res.toNat % 2 ^ 32) := by
    rw [readReg, extractLsb'_eq_ofNat, pow_zero, Nat.div_one]
    apply BitVec.eq_of_toNat_eq
    simp only [BitVec.toNat_ofNat, Nat.mod_mod]
  obtain rfl | rfl | rfl | rfl | rfl | rfl | rfl := hrow
  · exact fun hp => step_read (a := 0x000#12) hp rfl (regAt_id _) rfl
  · exact fun hp => step_read (a := 0x004#12) hp rfl (regAt_cap _) (capWord_eq hcfg)
  · exact fun hp => step_read (a := 0x008#12) hp rfl (regAt_cmd _) rfl
  · exact fun hp => step_read (a := 0x010#12) hp rfl (regAt_arg _) rfl
  · exact fun hp => step_read (a := 0x014#12) hp rfl (regAt_dinLen _) rfl
  · exact fun hp => step_read (a := 0x018#12) hp rfl (regAt_resLo _) hlo
  · exact fun hp => step_read (a := 0x01C#12) hp rfl (regAt_resHi _) (extractLsb'_eq_ofNat _ _)

/-- Settles O18: the word of `statusWord_eq`, with the code of R221 for each of the seven errors. -/
theorem statusReadsItsFields : Obligations.StatusReadsItsFields := by
  intro s rest row hrow herr hp
  have hcode : s.status.err.code = row.2 := by
    simp only [List.mem_cons, List.not_mem_nil, or_false] at hrow
    obtain rfl | rfl | rfl | rfl | rfl | rfl | rfl := hrow <;> rw [herr] <;> rfl
  rw [← hcode]
  exact step_read hp rfl (regAt_status _) (statusWord_eq s.status)

/-- Settles O22: ARG is the register at 0x010. -/
theorem argWriteStoresTheWord : Obligations.ArgWriteStoresTheWord :=
  fun _ _ _ hp => step_write hp rfl (regAt_arg _) (by simp)

section Effects
/-! What a command and a host event can do to the state, one constructor per kind of outcome. -/

/-- What executing a command can leave (R222, R223): its error, the state it had, its destination committed or emptied,
or RES written. The carry register is left as it was but for a sum (log 6). -/
inductive CommandEffect (i : Instr) (s : State) : State → Prop
  | fails (e : ErrCode) : CommandEffect i s (s.failed e)
  | keeps (l : Bool) : CommandEffect i s (s.completed l)
  | commits (vd : RegIdx) (n : Nat) (sg : Bool) (sc : Word) (b : List Byte) (l : Bool) (hd : destOf i = some vd) :
      CommandEffect i s ((commit vd n sg sc b s).completed l)
  | sums (vd va vb : RegIdx) (n : Nat) (sg : Bool) (sc : Word) (b : List Byte) (c : BitVec 9)
      (hi : i = .add vd va vb ∨ i = .sub vd va vb) :
      CommandEffect i s (({ commit vd n sg sc b s with carry := c } : State).completed false)
  | releases (vd : RegIdx) (hi : i = .release vd) :
      CommandEffect i s ((s.setReg vd (ValueReg.empty s.cfg.maxLen)).completed false)
  | narrows (va : RegIdx) (d : DWord) (l : Bool) (hi : i = .toU64 va ∨ i = .toF64 va) :
      CommandEffect i s (({ s with res := d } : State).completed l)

variable {i : Instr} {s t : State}

/-- A command that ends by committing its destination. -/
theorem commit_effect {vd : RegIdx} {n : Nat} {l sg : Bool} {sc : Word} {b : List Byte} (hd : destOf i = some vd) :
    Answers (CommandEffect i s) (complete l (commit vd n sg sc b s)) :=
  answers_complete.mpr (.commits vd n sg sc b l hd)

/-- The shape of the native constructors and of the format decoders (R141 to R144, R162 to R164). -/
theorem format_effect {vd : RegIdx} {k n : Nat} {sg : Bool} {sc : Word} {b : List Byte} (hd : destOf i = some vd) :
    Answers (CommandEffect i s) (withRegs [vd] s <| withSpan k s <| complete false (commit vd n sg sc b s)) :=
  answers_withRegs (.fails _) fun _ => answers_withSpan (.fails _) fun _ => commit_effect hd

/-- The shape of TO_U64 and TO_F64 (R188, R189). -/
theorem narrow_effect {va : RegIdx} {l : Bool} {d : DWord} (hi : i = .toU64 va ∨ i = .toF64 va) :
    Answers (CommandEffect i s) (withRegs [va] s <| withSources [va] s <| complete l { s with res := d }) :=
  answers_withRegs (.fails _) fun _ => answers_withSources (.fails _) fun _ =>
    answers_complete.mpr (.narrows va d l hi)

/-- The shape of ADD and SUB (R184, R185). -/
theorem addSigned_effect {vd va vb : RegIdx} {sb : Bool} (hi : i = .add vd va vb ∨ i = .sub vd va vb) :
    Answers (CommandEffect i s) (withRegs [vd, va, vb] s <| addSigned vd va vb sb s) :=
  answers_withRegs (.fails _) fun _ => answers_withSources (.fails _) fun _ => answers_withCapacity (.fails _) fun _ =>
    answers_complete.mpr (.sums vd va vb _ _ _ _ _ hi)

theorem execGrowBuffer_effect (vd : RegIdx) : Answers (CommandEffect (.growBuffer vd) s) (execGrowBuffer vd s) := by
  refine answers_withRegs (.fails _) fun _ => ?_
  dsimp only
  split_ifs
  · exact answers_withCapacity (.fails _) fun _ => commit_effect rfl
  · exact answers_complete.mpr (.keeps _)
  · exact answers_withCapacity (.fails _) fun _ => commit_effect rfl

theorem execCopy_effect (vd va : RegIdx) : Answers (CommandEffect (.copy vd va) s) (execCopy vd va s) := by
  refine answers_withRegs (.fails _) fun _ => ?_
  split_ifs
  · exact answers_complete.mpr (.keeps _)
  · exact answers_withSources (.fails _) fun _ => commit_effect rfl

theorem execDecMant_effect (vd : RegIdx) : Answers (CommandEffect (.decMant vd) s) (execDecMant vd s) := by
  refine answers_withRegs (.fails _) fun _ => ?_
  dsimp only
  split_ifs
  · exact answers_raiseError.mpr (.fails _)
  · exact answers_withSpan (.fails _) fun _ => commit_effect rfl

theorem execScaleTo_effect (vd : RegIdx) : Answers (CommandEffect (.scaleTo vd) s) (execScaleTo vd s) := by
  refine answers_withRegs (.fails _) fun _ => answers_withSources (.fails _) fun _ => ?_
  dsimp only
  split_ifs
  · exact answers_complete.mpr (.keeps _)
  · exact answers_withCapacity (.fails _) fun _ => commit_effect rfl
  · exact commit_effect rfl

/-- Every command has one of the listed effects. -/
theorem exec_effect (i : Instr) (s : State) : Answers (CommandEffect i s) (exec i s) := by
  cases i with
  | createBuffer vd =>
    exact answers_withRegs (.fails _) fun _ => answers_withCapacity (.fails _) fun _ => commit_effect rfl
  | growBuffer vd => exact execGrowBuffer_effect vd
  | release vd => exact answers_withRegs (.fails _) fun _ => answers_complete.mpr (.releases vd rfl)
  | copy vd va => exact execCopy_effect vd va
  | fromS64 vd | fromU64 vd | fromF64 vd | fromF32 vd | decFfp32 vd | decExt80 vd | decQuad128 vd =>
    exact format_effect rfl
  | decMant vd => exact execDecMant_effect vd
  | loadRaw vd neg => exact answers_withRegs (.fails _) fun _ => commit_effect rfl
  | add vd va vb => exact addSigned_effect (.inl rfl)
  | sub vd va vb => exact addSigned_effect (.inr rfl)
  | scaleTo vd => exact execScaleTo_effect vd
  | toU64 va => exact narrow_effect (.inl rfl)
  | toF64 va => exact narrow_effect (.inr rfl)

/-- What one host event can leave. Away from CMD, STATUS and reset it stores at most DIN, DIN_LEN and ARG, returns data
and sets BUS_ERR (R52 to R58). -/
inductive HostEffect (s : State) : HostEvent → State → Prop
  | resets : HostEffect s .reset (assertReset s)
  | rejects (w : Word) : HostEffect s (.write 0x008#12 4 w) (s.failed .illegalCmd)
  | runs (w : Word) (i : Instr) (t : State) (hd : decode w = .ok i) (ht : CommandEffect i s t) :
      HostEffect s (.write 0x008#12 4 w) t
  | clears (w : Word) : HostEffect s (.write 0x00C#12 4 w) { s with status := s.status.afterWrite w }
  | stores (e : HostEvent) (din : List Byte) (dinLen : Nat) (arg : Word) (returned : List Word) (bus : Bool) :
      HostEffect s e { s with
        din := din, dinLen := dinLen, arg := arg, returned := returned
        status := { s.status with busErr := bus || s.status.busErr } }

theorem busError_effect (e : HostEvent) : HostEffect s e (busError s) :=
  .stores e s.din s.dinLen s.arg s.returned true

theorem busRead_effect (e : HostEvent) (a : Addr) (n : Nat) : HostEffect s e (busRead a n s) := by
  obtain ⟨r, -, -, heq⟩ | ⟨-, heq⟩ := busRead_cases a n s
  · rw [heq]; exact .stores e s.din s.dinLen s.arg (s.returned ++ [readReg s r]) false
  · rw [heq]; exact .stores e s.din s.dinLen s.arg (s.returned ++ [0#32]) true

/-- A register write away from CMD and STATUS stores an input register or is a bus error (R29, R55 to R57). -/
theorem writeReg_effect (e : HostEvent) (d : Word) {r : WindowReg} (hs : r ≠ .status) :
    HostEffect s e (writeReg d s r) := by
  cases r with
  | status => exact absurd rfl hs
  | arg => exact .stores e s.din s.dinLen d s.returned false
  | dinLen => exact .stores e s.din (min d.toNat s.cfg.maxLen) s.arg s.returned false
  | din k => exact .stores e (unpackWord s.cfg.maxLen k d s.din) s.dinLen s.arg s.returned false
  | cmd => exact .stores e s.din s.dinLen s.arg s.returned false
  | id | cap | resLo | resHi | vctl | vscale | mag => exact busError_effect e

theorem runCommand_effect (w : Word) : Answers (HostEffect s (.write 0x008#12 4 w)) (runCommand w s) := by
  cases hd : decode w with
  | error e => rw [runCommand_error hd, answers_next]; exact .rejects w
  | ok i => rw [runCommand_ok hd]; exact fun t ht => .runs w i t hd (exec_effect i s t ht)

/-- Only at 0x008 does a write run a command, and only at 0x00C does it clear flags (`regAt_cmd_or_status`). -/
theorem busWrite_effect (a : Addr) (n : Nat) (d : Word) : Answers (HostEffect s (.write a n d)) (busWrite a n d s) := by
  obtain ⟨hl, hr, heq⟩ | ⟨r, -, hl, hr, heq⟩ | ⟨-, heq⟩ := busWrite_cases a n d s
  · obtain rfl := size_eq_of_legalAccess hl
    obtain rfl := (regAt_cmd_or_status s.cfg hr).1 rfl
    rw [heq]; exact runCommand_effect d
  · rw [heq, answers_next]
    by_cases hs : r = .status
    · obtain rfl := size_eq_of_legalAccess hl
      obtain rfl := (regAt_cmd_or_status s.cfg hr).2 hs
      rw [hs]; exact .clears d
    · exact writeReg_effect _ d hs
  · rw [heq, answers_next]; exact busError_effect _

theorem hostEvent_effect (e : HostEvent) : Answers (HostEffect s e) (hostEvent e s) := by
  cases e with
  | read a n => exact answers_next.mpr (busRead_effect _ a n)
  | write a n d => exact busWrite_effect a n d
  | reset => exact answers_next.mpr .resets

/-- A step idles, or has one of the listed effects of its event on the state with that event taken (R60, R62). -/
theorem step_effect (h : step s = .next t) :
    (s.pending = [] ∧ t = s) ∨
      ∃ e rest, s.pending = e :: rest ∧ HostEffect { s with pending := rest } e t := by
  cases hp : s.pending with
  | nil => rw [step, serveHost, hp] at h; cases h; exact .inl ⟨rfl, rfl⟩
  | cons e rest => rw [step_cons hp] at h; exact .inr ⟨e, rest, rfl, hostEvent_effect e t h⟩
end Effects

section Sticky
/-! Who clears a sticky flag (R33). -/
variable {s t : State}

/-- No sticky flag goes from 1 to 0. -/
def StickyKept (st st' : Status) : Prop :=
  (st.stickyErr = true → st'.stickyErr = true) ∧ (st.stickyLossy = true → st'.stickyLossy = true) ∧
    (st.busErr = true → st'.busErr = true)

/-- `StickyKept` is what the claim's three ways to clear a flag deny. -/
theorem stickyKept_iff {st st' : Status} : StickyKept st st' ↔
    ¬((st.stickyErr = true ∧ st'.stickyErr = false) ∨ (st.stickyLossy = true ∧ st'.stickyLossy = false) ∨
      (st.busErr = true ∧ st'.busErr = false)) := by
  simp only [StickyKept, not_or, not_and, Bool.not_eq_false]

theorem stickyKept_afterError (st : Status) (e : ErrCode) : StickyKept st (st.afterError e) :=
  ⟨fun _ => rfl, id, id⟩

theorem stickyKept_afterSuccess (st : Status) (l : Bool) : StickyKept st (st.afterSuccess l) :=
  ⟨id, fun h => by simp [h], id⟩

/-- No command clears a sticky flag (R222, R223). -/
theorem CommandEffect.stickyKept {i : Instr} (h : CommandEffect i s t) : StickyKept s.status t.status := by
  cases h with
  | fails e => exact stickyKept_afterError _ e
  | keeps l | commits _ _ _ _ _ l | narrows _ _ l => exact stickyKept_afterSuccess _ l
  | sums | releases => exact stickyKept_afterSuccess _ false

theorem HostEffect.stickyKept {e : HostEvent} (h : HostEffect s e t) :
    StickyKept s.status t.status ∨ e = .reset ∨ ∃ w, e = .write 0x00C#12 4 w := by
  cases h with
  | resets => exact .inr (.inl rfl)
  | rejects w => exact .inl (stickyKept_afterError _ _)
  | runs w i _ hd ht => exact .inl ht.stickyKept
  | clears w => exact .inr (.inr ⟨w, rfl⟩)
  | stores => exact .inl ⟨id, id, fun h => by simp [h]⟩
end Sticky

section Alloc
/-! Who clears ALLOC (R22). -/
variable {s t : State} {j : RegIdx}

/-- An index with no register reads as empty (log 9). -/
theorem lt_of_alloc (h : (s.reg j).alloc = true) : j.toNat < s.v.length := by
  by_contra hj
  simp [State.reg, List.getD, Nat.le_of_not_lt hj] at h

/-- Writing an allocated register empties none. -/
theorem alloc_setReg {vd : RegIdx} {r : ValueReg} (hr : r.alloc = true) (h : (s.reg j).alloc = true) :
    ((s.setReg vd r).reg j).alloc = true := by
  by_cases hj : j = vd
  · subst hj; rw [reg_setReg_same s j r (lt_of_alloc h)]; exact hr
  · rw [reg_setReg_other s vd j r hj]; exact h

/-- No command but RELEASE of V[j] empties V[j]. -/
theorem CommandEffect.alloc {i : Instr} (h : CommandEffect i s t) (hj : (s.reg j).alloc = true) :
    (t.reg j).alloc = true ∨ i = .release j := by
  cases h with
  | fails | keeps | narrows => exact .inl hj
  | commits vd => exact .inl (alloc_setReg (vd := vd) rfl hj)
  | sums vd => exact .inl (alloc_setReg (vd := vd) rfl hj)
  | releases vd hi =>
    by_cases hd : j = vd
    · exact .inr (hd ▸ hi)
    · exact .inl ((congrArg ValueReg.alloc (reg_setReg_other s vd j _ hd)).trans hj)

theorem HostEffect.alloc {e : HostEvent} (h : HostEffect s e t) (hj : (s.reg j).alloc = true) :
    (t.reg j).alloc = true ∨ e = .reset ∨ ∃ w, e = .write 0x008#12 4 w ∧ decode w = .ok (.release j) := by
  cases h with
  | resets => exact .inr (.inl rfl)
  | rejects | clears | stores => exact .inl hj
  | runs w i _ hd ht =>
    obtain hkept | rfl := ht.alloc hj
    · exact .inl hkept
    · exact .inr (.inr ⟨w, rfl, hd⟩)
end Alloc

/-- Settles O58: each outcome of `CommandEffect` writes at most the one destination register, RES or the carry. -/
theorem commandsChangeOnlyTheirResults : Obligations.CommandsChangeOnlyTheirResults := by
  intro i s t h
  have hother {vd j : RegIdx} (r : ValueReg) (hd : destOf i = some vd) (hj : destOf i ≠ some j) :
      (s.setReg vd r).reg j = s.reg j := reg_setReg_other s vd j r fun e => hj (e ▸ hd)
  cases exec_effect i s t h with
  | fails | keeps => exact ⟨rfl, rfl, rfl, rfl, rfl, rfl, rfl, fun _ _ => rfl, .inl rfl, .inl rfl⟩
  | commits vd n sg sc b l hd =>
    exact ⟨rfl, rfl, rfl, rfl, rfl, rfl, List.length_set, fun _ => hother _ hd, .inl rfl, .inl rfl⟩
  | sums vd va vb n sg sc b c hi =>
    have hd : destOf i = some vd := by obtain rfl | rfl := hi <;> rfl
    exact ⟨rfl, rfl, rfl, rfl, rfl, rfl, List.length_set, fun _ => hother _ hd, .inl rfl, .inr ⟨vd, va, vb, hi⟩⟩
  | releases vd hi =>
    have hd : destOf i = some vd := by rw [hi]; rfl
    exact ⟨rfl, rfl, rfl, rfl, rfl, rfl, List.length_set, fun _ => hother _ hd, .inl rfl, .inl rfl⟩
  | narrows va d l hi =>
    exact ⟨rfl, rfl, rfl, rfl, rfl, rfl, rfl, fun _ _ => rfl, .inr ⟨va, hi⟩, .inl rfl⟩

/-- Settles O16: STATUS is the register at 0x00C, and no other effect of a host event clears a sticky flag
(`HostEffect.stickyKept`). -/
theorem onlyStatusWritesAndResetClearStickyFlags : Obligations.OnlyStatusWritesAndResetClearStickyFlags := by
  refine ⟨fun s w rest hp => step_write hp rfl (regAt_status _) (by simp), fun s t hstep hcleared => ?_⟩
  obtain ⟨-, rfl⟩ | ⟨e, rest, hp, heff⟩ := step_effect hstep
  · exact absurd hcleared (stickyKept_iff.mp ⟨id, id, id⟩)
  obtain hkept | rfl | ⟨w, rfl⟩ := heff.stickyKept
  · exact absurd hcleared (stickyKept_iff.mp hkept)
  · exact ⟨rest, .inl hp⟩
  · exact ⟨rest, .inr ⟨w, hp⟩⟩

/-- Settles O24: of the effects of a host event, only reset and a CMD write reach a result. -/
theorem onlyCommandsWriteResults : Obligations.OnlyCommandsWriteResults := by
  intro s t e rest hp hstep hcmd hreset
  rw [step_cons hp] at hstep
  cases hostEvent_effect e t hstep with
  | resets => exact absurd rfl hreset
  | rejects w | runs w => exact absurd rfl (hcmd w)
  | clears | stores => exact ⟨rfl, rfl, rfl, rfl, rfl⟩

/-- Settles O59: no effect of a host event but reset and RELEASE of the register clears ALLOC (`HostEffect.alloc`). -/
theorem onlyReleaseAndResetClearAlloc : Obligations.OnlyReleaseAndResetClearAlloc := by
  intro s t j hstep hj hempty
  obtain ⟨-, rfl⟩ | ⟨e, rest, hp, heff⟩ := step_effect hstep
  · rw [hj] at hempty; cases hempty
  obtain hkept | rfl | ⟨w, rfl, hd⟩ := heff.alloc (j := j) hj
  · rw [hkept] at hempty; cases hempty
  · exact ⟨rest, .inl hp⟩
  · exact ⟨rest, .inr ⟨w, hp, hd⟩⟩

end Sys2Proof.Machine
end

section
/-! ADD and SUB in the integers (44_arithmetic.md, R180 to R186), and over the rationals that registers denote (R24 (a),
R190; O48). The adder, the subtractor and the comparator are exact on sequences of at most `l` bytes; so the body that
ADD and SUB share writes the register that holds the signed sum at the larger scale (`addSigned_eq`). -/

namespace Sys2Proof.Machine

section Loops
/-! The three loops over byte positions, by induction on the number of positions. -/
variable {l : Nat} {a b : List Byte}

/-- The lowest byte and the rest; a missing byte is 0. -/
theorem leNat_headD_tail (a : List Byte) : leNat a = (a.headD 0#8).toNat + 256 * leNat a.tail := by
  cases a <;> simp

/-- The highest of `n + 1` bytes and the rest; a missing byte is 0. -/
theorem leNat_take_succ (n : Nat) (a : List Byte) :
    leNat (a.take (n + 1)) = leNat (a.take n) + 256 ^ n * (a.getD n 0#8).toNat := by
  by_cases h : n < a.length
  · rw [List.take_succ_eq_append_getElem h, leNat_append, List.length_take, Nat.min_eq_left h.le,
      List.getD_eq_getElem _ _ h, leNat_cons, leNat_nil, Nat.mul_zero, Nat.add_zero]
  · have h' := Nat.le_of_not_lt h
    rw [List.take_of_length_le (h'.trans n.le_succ), List.take_of_length_le h', List.getD_eq_default _ _ h']
    simp

/-- The carry register has room for two bytes and a carry (R182). -/
theorem toNat_carry_add {c : BitVec 9} (hc : c.toNat ≤ 1) (x y : Byte) :
    (c + x.setWidth 9 + y.setWidth 9).toNat = c.toNat + x.toNat + y.toNat := by
  have hx := x.isLt
  have hy := y.isLt
  simp only [BitVec.toNat_add, BitVec.toNat_setWidth]
  omega

/-- MagAdd's loop with carry in and carry out (R182). -/
theorem magAddLoop_spec (ha : a.length ≤ l) (hb : b.length ≤ l) {c : BitVec 9} (hc : c.toNat ≤ 1) :
    (magAddLoop l a b c).1.length = l ∧ (magAddLoop l a b c).2.toNat ≤ 1 ∧
      leNat (magAddLoop l a b c).1 + 256 ^ l * (magAddLoop l a b c).2.toNat = leNat a + leNat b + c.toNat := by
  induction l generalizing a b c with
  | zero =>
    obtain rfl := List.length_eq_zero_iff.mp (Nat.le_zero.mp ha)
    obtain rfl := List.length_eq_zero_iff.mp (Nat.le_zero.mp hb)
    simpa [magAddLoop] using hc
  | succ n ih =>
    rw [leNat_headD_tail a, leNat_headD_tail b, magAddLoop]
    have hsum := toNat_carry_add hc (a.headD 0#8) (b.headD 0#8)
    generalize c + (a.headD 0#8).setWidth 9 + (b.headD 0#8).setWidth 9 = p at hsum ⊢
    have hcarry : (p >>> 8).toNat = p.toNat / 256 := by
      rw [BitVec.toNat_ushiftRight, Nat.shiftRight_eq_div_pow]
    have hp := p.isLt
    obtain ⟨hlen, hout, hval⟩ := ih (a := a.tail) (b := b.tail) (by simpa using ha) (by simpa using hb)
      (c := p >>> 8) (by omega)
    refine ⟨by simp only [List.length_cons, hlen], hout, ?_⟩
    rw [hcarry] at hval
    have hdigit : p.toNat % 2 ^ 8 + 256 * (p.toNat / 256) = p.toNat := Nat.mod_add_div p.toNat 256
    dsimp only
    rw [leNat_cons, BitVec.toNat_setWidth, pow_succ 256]
    linarith

/-- MagAdd is exact on sequences of at most `l` bytes (R182). -/
theorem magAdd_spec (ha : a.length ≤ l) (hb : b.length ≤ l) :
    (magAdd l a b).1.length = l + 1 ∧ leNat (magAdd l a b).1 = leNat a + leNat b := by
  obtain ⟨hlen, hout, hval⟩ := magAddLoop_spec ha hb (c := 0#9) (by simp)
  have hlast : ((magAddLoop l a b 0#9).2.setWidth 8).toNat = (magAddLoop l a b 0#9).2.toNat := by
    rw [BitVec.toNat_setWidth]; omega
  refine ⟨by simp [magAdd, hlen], ?_⟩
  rw [magAdd, leNat_append, hlen, leNat_cons, hlast]
  simpa using hval

/-- One byte position of MagSub (R183): the byte of the difference, and the borrow exactly when it is negative. -/
theorem toNat_ofInt_sub (x y : Byte) {w : Nat} (hw : w ≤ 1) :
    (BitVec.ofInt 8 ((x.toNat : Int) - y.toNat - w)).toNat + y.toNat + w =
      x.toNat + 256 * (if (x.toNat : Int) - y.toNat - w < 0 then 1 else 0) := by
  have hx := x.isLt
  have hy := y.isLt
  rw [BitVec.toNat_ofInt]
  split_ifs <;> omega

/-- MagSub's loop with borrow in and borrow out (R183). -/
theorem magSubLoop_spec (ha : a.length ≤ l) (hb : b.length ≤ l) {w : Nat} (hw : w ≤ 1) :
    (magSubLoop l a b w).length = l ∧
      ∃ w' ≤ 1, leNat (magSubLoop l a b w) + leNat b + w = leNat a + 256 ^ l * w' := by
  induction l generalizing a b w with
  | zero =>
    obtain rfl := List.length_eq_zero_iff.mp (Nat.le_zero.mp ha)
    obtain rfl := List.length_eq_zero_iff.mp (Nat.le_zero.mp hb)
    exact ⟨rfl, w, hw, by simp [magSubLoop]⟩
  | succ n ih =>
    rw [leNat_headD_tail a, leNat_headD_tail b, magSubLoop]
    have hbyte := toNat_ofInt_sub (a.headD 0#8) (b.headD 0#8) hw
    obtain ⟨hlen, w', hw', hval⟩ := ih (a := a.tail) (b := b.tail) (by simpa using ha) (by simpa using hb)
      (w := if ((a.headD 0#8).toNat : Int) - (b.headD 0#8).toNat - w < 0 then 1 else 0) (by split_ifs <;> omega)
    refine ⟨by simp only [List.length_cons, hlen], w', hw', ?_⟩
    simp only [leNat_cons, pow_succ]
    linarith

/-- MagSub is exact where the difference is not negative (R183): a borrow out would make it so. -/
theorem magSub_spec (ha : a.length ≤ l) (hb : b.length ≤ l) (hle : leNat b ≤ leNat a) :
    (magSub l a b).length = l + 1 ∧ leNat (magSub l a b) = leNat a - leNat b := by
  obtain ⟨hlen, w', hw', hval⟩ := magSubLoop_spec ha hb (w := 0) (Nat.zero_le 1)
  have hlt := leNat_lt (magSubLoop l a b 0)
  rw [hlen] at hlt
  have hborrow : w' = 0 := by
    by_contra hne
    obtain rfl : w' = 1 := by omega
    omega
  subst hborrow
  refine ⟨by simp [magSub, hlen], ?_⟩
  rw [magSub, leNat_append, leNat_cons, leNat_nil]
  simp only [BitVec.toNat_ofNat]
  omega

/-- MagCmp compares the integers of the lowest `n` bytes (R181): the highest byte that differs decides. -/
theorem magCmp_take (n : Nat) (a b : List Byte) :
    magCmp n a b = compare (leNat (a.take n)) (leNat (b.take n)) := by
  induction n with
  | zero => simp [magCmp]
  | succ n ih =>
    have hlt (c : List Byte) : leNat (c.take n) < 256 ^ n :=
      (leNat_lt _).trans_le (Nat.pow_le_pow_right (by norm_num) (List.length_take_le n c))
    have hmono {p q x y : Nat} (hp : p < 256 ^ n) (hxy : x < y) : p + 256 ^ n * x < q + 256 ^ n * y :=
      calc p + 256 ^ n * x < 256 ^ n * (x + 1) := by rw [Nat.mul_succ]; omega
        _ ≤ 256 ^ n * y := Nat.mul_le_mul_left _ hxy
        _ ≤ q + 256 ^ n * y := Nat.le_add_left _ _
    rw [leNat_take_succ, leNat_take_succ, magCmp]
    split_ifs with heq hgt
    · rw [ih, heq, Nat.compare_eq_ite_lt, Nat.compare_eq_ite_lt]
      simp only [Nat.add_lt_add_iff_right]
    · exact (compare_gt_iff_gt.mpr (hmono (hlt b) hgt)).symm
    · exact (compare_lt_iff_lt.mpr (hmono (hlt a) (by omega))).symm

/-- MagCmp compares sequences of at most `l` bytes as integers (R181). -/
theorem magCmp_eq_compare (ha : a.length ≤ l) (hb : b.length ≤ l) : magCmp l a b = compare (leNat a) (leNat b) := by
  rw [magCmp_take, List.take_of_length_le ha, List.take_of_length_le hb]
end Loops

section SignedSum
/-! The three cases of R184 are one signed sum. -/

/-- `n` with a sign. -/
def withSign (neg : Bool) (n : Nat) : Int := (if neg then -1 else 1) * (n : Int)

@[simp] theorem withSign_true (n : Nat) : withSign true n = -n := by simp [withSign]
@[simp] theorem withSign_false (n : Nat) : withSign false n = n := by simp [withSign]

/-- The sign and magnitude of a signed number, with the sign of 0 cleared as R186 does, are those of the integer. -/
theorem sign_magnitude_of_withSign {neg : Bool} {n : Nat} {z : Int} (h : withSign neg n = z) :
    (neg && n != 0) = decide (z < 0) ∧ n = z.natAbs := by
  subst h
  cases neg
  · simp
  · refine ⟨?_, by simp⟩
    rw [Bool.true_and, withSign_true, Bool.eq_iff_iff, bne_iff_ne, decide_eq_true_iff]
    omega

/-- The bytes, the sign before R186 and the carry register that ADD and SUB compute (R184); `addSigned_eq` ties it to
them. -/
def signedSum (l : Nat) (a b : List Byte) (sa sb : Bool) : List Byte × Bool × BitVec 9 :=
  if sa = sb then ((magAdd l a b).1, sa, (magAdd l a b).2)
  else if magCmp l a b = .lt then (magSub l b a, sb, 0#9)
  else (magSub l a b, sa, 0#9)

/-- Operands of unlike sign: the smaller magnitude is taken from the larger, whose sign the result has. -/
theorem withSign_sub {sa sb : Bool} (h : sa ≠ sb) {m n : Nat} (hle : n ≤ m) :
    withSign sa (m - n) = withSign sa m + withSign sb n := by
  obtain rfl : sb = !sa := Bool.eq_not.mpr h.symm
  cases sa
  · rw [Bool.not_false, withSign_false, withSign_false, withSign_true]; omega
  · rw [Bool.not_true, withSign_true, withSign_true, withSign_false]; omega

/-- The three cases are exact: `l + 1` bytes whose signed integer is the sum of the operands' (R184). -/
theorem signedSum_spec {l : Nat} {a b : List Byte} (ha : a.length ≤ l) (hb : b.length ≤ l) (sa sb : Bool) :
    (signedSum l a b sa sb).1.length = l + 1 ∧
      withSign (signedSum l a b sa sb).2.1 (leNat (signedSum l a b sa sb).1) =
        withSign sa (leNat a) + withSign sb (leNat b) := by
  unfold signedSum
  split_ifs with hs hcmp
  · obtain ⟨hlen, hval⟩ := magAdd_spec ha hb
    refine ⟨hlen, ?_⟩
    rw [hval, hs]
    simp only [withSign]; push_cast; ring
  · rw [magCmp_eq_compare ha hb, compare_lt_iff_lt] at hcmp
    obtain ⟨hlen, hval⟩ := magSub_spec hb ha hcmp.le
    refine ⟨hlen, ?_⟩
    rw [hval, withSign_sub (Ne.symm hs) hcmp.le, add_comm]
  · rw [magCmp_eq_compare ha hb, compare_lt_iff_lt, not_lt] at hcmp
    obtain ⟨hlen, hval⟩ := magSub_spec ha hb hcmp
    refine ⟨hlen, ?_⟩
    rw [hval, withSign_sub hs hcmp]
end SignedSum

section Sum
/-! What ADD and SUB write. -/
variable {s : State}

/-- The scale of a sum (R184). -/
def sumScale (ra rb : ValueReg) : Nat := max ra.scale.toNat rb.scale.toNat

/-- The signed sum of two registers at the sum's scale, with `sb` as the second one's sign (R184). -/
def sumInt (ra rb : ValueReg) (sb : Bool) : Int :=
  ra.scaledInt ra.sign (sumScale ra rb) + rb.scaledInt sb (sumScale ra rb)

/-- The register that holds the signed sum of two registers (R184, R186). -/
def sumReg (maxLen : Nat) (ra rb : ValueReg) (sb : Bool) : ValueReg :=
  .holding maxLen (sumRoom ra rb) (decide (sumInt ra rb sb < 0)) (BitVec.ofNat 32 (sumScale ra rb))
    (sumInt ra rb sb).natAbs

/-- `Align` multiplies by the padding (R180). -/
theorem leNat_alignTo (r : ValueReg) (sc : Nat) : leNat (r.alignTo sc) = r.magNat * 256 ^ (sc - r.scale.toNat) := by
  rw [ValueReg.alignTo, leNat_append, leNat_zeros, List.length_replicate, Nat.zero_add, Nat.mul_comm, ValueReg.magNat]

theorem length_alignTo {m : Nat} {r : ValueReg} (h : r.Wf m) (sc : Nat) : (r.alignTo sc).length = r.alignedLen sc := by
  rw [ValueReg.alignTo, List.length_append, List.length_replicate, length_bytes h, ValueReg.alignedLen, Nat.add_comm]

/-- The longer aligned length: one less than the room of the sum (R184). -/
def sumLen (ra rb : ValueReg) : Nat := max (ra.alignedLen (sumScale ra rb)) (rb.alignedLen (sumScale ra rb))

theorem sumRoom_eq (ra rb : ValueReg) : sumRoom ra rb = sumLen ra rb + 1 := rfl

/-- What the adder does with two aligned registers (R184). -/
def alignedSum (ra rb : ValueReg) (sb : Bool) : List Byte × Bool × BitVec 9 :=
  signedSum (sumLen ra rb) (ra.alignTo (sumScale ra rb)) (rb.alignTo (sumScale ra rb)) ra.sign sb

theorem scaledInt_eq_withSign (r : ValueReg) (neg : Bool) (sc : Nat) :
    r.scaledInt neg sc = withSign neg (r.magNat * 256 ^ (sc - r.scale.toNat)) := rfl

/-- The room, sign and magnitude of an aligned sum are those of the signed sum of the registers (R184, R186). -/
theorem alignedSum_spec {m : Nat} {ra rb : ValueReg} (ha : ra.Wf m) (hb : rb.Wf m) (sb : Bool) :
    (alignedSum ra rb sb).1.length = sumRoom ra rb ∧
      ((alignedSum ra rb sb).2.1 && leNat (alignedSum ra rb sb).1 != 0) = decide (sumInt ra rb sb < 0) ∧
      leNat (alignedSum ra rb sb).1 = (sumInt ra rb sb).natAbs := by
  obtain ⟨hlen, hval⟩ := signedSum_spec (l := sumLen ra rb) (a := ra.alignTo (sumScale ra rb))
    (b := rb.alignTo (sumScale ra rb)) (by rw [length_alignTo ha]; exact Nat.le_max_left _ _)
    (by rw [length_alignTo hb]; exact Nat.le_max_right _ _) ra.sign sb
  rw [leNat_alignTo, leNat_alignTo, ← scaledInt_eq_withSign, ← scaledInt_eq_withSign] at hval
  exact ⟨hlen.trans (sumRoom_eq ra rb).symm, sign_magnitude_of_withSign hval⟩

/-- A signed sum fits its room. -/
theorem natAbs_sumInt_lt {m : Nat} {ra rb : ValueReg} (ha : ra.Wf m) (hb : rb.Wf m) (sb : Bool) :
    (sumInt ra rb sb).natAbs < 256 ^ sumRoom ra rb := by
  obtain ⟨hlen, -, hmag⟩ := alignedSum_spec ha hb sb
  rw [← hmag, ← hlen]
  exact leNat_lt _

/-- ADD's and SUB's body in the terms of this section. -/
theorem addSigned_eq_alignedSum (vd va vb : RegIdx) (sb : Bool) (s : State) :
    addSigned vd va vb sb s = (withSources [va, vb] s <| withCapacity (sumRoom (s.reg va) (s.reg vb)) s <|
      let out := alignedSum (s.reg va) (s.reg vb) sb
      complete false { commit vd (sumRoom (s.reg va) (s.reg vb)) (out.2.1 && leNat out.1 != 0)
        (BitVec.ofNat 32 (sumScale (s.reg va) (s.reg vb))) out.1 s with carry := out.2.2 }) := rfl

/-- A checked operation may use that its result has room. -/
theorem withCapacity_congr {n : Nat} {k k' : Result} (h : n ≤ s.cfg.maxLen → k = k') :
    withCapacity n s k = withCapacity n s k' := by
  unfold withCapacity
  split_ifs with hn
  · rfl
  · exact h (Nat.le_of_not_lt hn)

/-- The body that ADD and SUB share: its two checks, and then the register that holds the signed sum (R184 to R186). -/
theorem addSigned_eq (h : s.Wf) (vd va vb : RegIdx) (sb : Bool) :
    ∃ c, addSigned vd va vb sb s = (withSources [va, vb] s <| withCapacity (sumRoom (s.reg va) (s.reg vb)) s <|
      .next { s.wrote vd (sumReg s.cfg.maxLen (s.reg va) (s.reg vb) sb) false with carry := c }) := by
  obtain ⟨hlen, hsign, hmag⟩ := alignedSum_spec (reg_wf h va) (reg_wf h vb) sb
  refine ⟨(alignedSum (s.reg va) (s.reg vb) sb).2.2, ?_⟩
  rw [addSigned_eq_alignedSum]
  refine congrArg (withSources [va, vb] s) (withCapacity_congr fun hroom => ?_)
  dsimp only
  rw [hsign, commit_eq_wrote _ _ _ _ _ _ hlen hroom, hmag]
  rfl
end Sum

section Values
/-! The rationals that registers denote (R24 (a)). -/

/-- A register's value is its signed integer at any scale not below its own. -/
theorem value_eq_scaledInt (r : ValueReg) {sc : Nat} (h : r.scale.toNat ≤ sc) :
    r.value = (r.scaledInt r.sign sc : ℚ) / 256 ^ sc := by
  obtain ⟨d, rfl⟩ := Nat.exists_eq_add_of_le h
  have hsc : (256 : ℚ) ^ r.scale.toNat ≠ 0 := by positivity
  have hd : (256 : ℚ) ^ d ≠ 0 := by positivity
  rw [ValueReg.value, ValueReg.scaledInt, Nat.add_sub_cancel_left, pow_add]
  push_cast
  field_simp

theorem scaledInt_not (r : ValueReg) (neg : Bool) (sc : Nat) : r.scaledInt (!neg) sc = -r.scaledInt neg sc := by
  cases neg <;> simp [ValueReg.scaledInt]

/-- The sign and magnitude of an integer denote it. -/
theorem sign_mul_natAbs (z : Int) : (if decide (z < 0) then (-1 : ℚ) else 1) * (z.natAbs : ℚ) = z := by
  rw [Nat.cast_natAbs]
  split_ifs with hneg
  · simp [abs_of_neg (of_decide_eq_true hneg)]
  · simp [abs_of_nonneg (not_lt.mp (mt decide_eq_true hneg))]

/-- The register that a sum leaves denotes the signed sum at the sum's scale: room, and so LEN, suffices for it. -/
theorem sumReg_value {m : Nat} {ra rb : ValueReg} (ha : ra.Wf m) (hb : rb.Wf m) (sb : Bool)
    (hroom : sumRoom ra rb ≤ m) : (sumReg m ra rb sb).value = (sumInt ra rb sb : ℚ) / 256 ^ sumScale ra rb := by
  have hscale : (BitVec.ofNat 32 (sumScale ra rb)).toNat = sumScale ra rb := by
    have := ra.scale.isLt
    have := rb.scale.isLt
    rw [BitVec.toNat_ofNat, sumScale]
    omega
  have hmag : (sumReg m ra rb sb).magNat = (sumInt ra rb sb).natAbs :=
    magNat_holding _ _ _ _ _ hroom (natAbs_sumInt_lt ha hb sb)
  rw [ValueReg.value, hmag, sumReg, ValueReg.holding, hscale, sign_mul_natAbs]

/-- What a completed ADD or SUB leaves in V[vd] (R190). -/
theorem addSigned_value {s : State} (h : s.Wf) (vd va vb : RegIdx) (sb : Bool) :
    Answers (fun t => t.status.err = .ok → (t.reg vd).value =
        (sumInt (s.reg va) (s.reg vb) sb : ℚ) / 256 ^ sumScale (s.reg va) (s.reg vb))
      (withRegs [vd, va, vb] s <| addSigned vd va vb sb s) := by
  have ⟨_, hnv, _⟩ := h
  obtain ⟨c, heq⟩ := addSigned_eq h vd va vb sb
  rw [heq]
  refine answers_withRegs (fun e => by cases e) fun hregs => answers_withSources (fun e => by cases e) fun _ =>
    answers_withCapacity (fun e => by cases e) fun hroom => answers_next.mpr fun _ => ?_
  have hvd : vd.toNat < s.v.length := hnv ▸ hregs vd (by simp)
  rw [← sumReg_value (reg_wf h va) (reg_wf h vb) sb hroom]
  exact congrArg ValueReg.value (reg_setReg_same s vd _ hvd)
end Values

/-- Settles O48: the value of the signed sum (`addSigned_value`) is the sum of the values at the common scale
(`value_eq_scaledInt`); SUB is the sum with V[vb]'s sign inverted (`scaledInt_not`). -/
theorem addAndSubAreExactOnValues : Obligations.AddAndSubAreExactOnValues := by
  intro s t vd va vb h hok
  have hva := value_eq_scaledInt (s.reg va) (le_max_left _ (s.reg vb).scale.toNat)
  have hvb := value_eq_scaledInt (s.reg vb) (le_max_right (s.reg va).scale.toNat _)
  refine ⟨fun hexec => ?_, fun hexec => ?_⟩
  · rw [addSigned_value h vd va vb _ t hexec hok, hva, hvb, ← add_div, sumInt, sumScale]
    push_cast; rfl
  · rw [addSigned_value h vd va vb _ t hexec hok, hva, hvb, ← sub_div, sumInt, sumScale, scaledInt_not]
    push_cast; ring

end Sys2Proof.Machine
end

section
/-! The register window (20_memory.md). No host access, and so no step, stops the machine (R220, R226, R240; O12). Which
address names which register is said once per kind of register (R53); from that follow the accesses that only set
BUS_ERR (R52, R54, R55; O13, O14, O15, O23), and what the windows of the value registers, the DIN words and DIN_LEN
read and store (R56 to R58; O19, O20, O21). -/

namespace Sys2Proof.Machine

section NoStop
/-! No result of the model is a stop: each guard fails with an error, which is a next state (R220), or goes on. -/
variable {s : State} {k : Result}

/-- The block goes on: `r` answers a next state. -/
def GoesOn (r : Result) : Prop := ∃ t, r = .next t

theorem goesOn_next (t : State) : GoesOn (.next t) := ⟨t, rfl⟩
theorem goesOn_raiseError (e : ErrCode) (s : State) : GoesOn (raiseError e s) := ⟨_, raiseError_eq e s⟩
theorem goesOn_complete (l : Bool) (s : State) : GoesOn (complete l s) := ⟨_, complete_eq l s⟩

theorem GoesOn.withRegs {rs : List RegIdx} (hk : GoesOn k) : GoesOn (withRegs rs s k) := by
  obtain ⟨-, hgo⟩ | ⟨-, hfail⟩ := withRegs_cases rs s k
  · rwa [hgo]
  · exact ⟨_, hfail⟩

theorem GoesOn.withSources {rs : List RegIdx} (hk : GoesOn k) : GoesOn (withSources rs s k) := by
  obtain ⟨-, hgo⟩ | ⟨-, hfail⟩ := withSources_cases rs s k
  · rwa [hgo]
  · exact ⟨_, hfail⟩

theorem GoesOn.withCapacity {n : Nat} (hk : GoesOn k) : GoesOn (withCapacity n s k) := by
  obtain ⟨-, hgo⟩ | ⟨-, hfail⟩ := withCapacity_cases n s k
  · rwa [hgo]
  · exact ⟨_, hfail⟩

theorem GoesOn.withSpan {n : Nat} (hk : GoesOn k) : GoesOn (withSpan n s k) := by
  obtain ⟨-, hgo⟩ | ⟨-, hfail⟩ := withSpan_cases n s k
  · rwa [hgo]
  · exact ⟨_, hfail⟩

/-- A branch of a meaning goes on if both its sides do. -/
theorem GoesOn.ite {c : Prop} [Decidable c] {x y : Result} (hx : GoesOn x) (hy : GoesOn y) :
    GoesOn (if c then x else y) := by
  split_ifs
  · exact hx
  · exact hy

/-- Every command goes on: its meaning is a chain of guards and branches that ends in an error or in completion. -/
theorem exec_goesOn (i : Instr) (s : State) : GoesOn (exec i s) := by
  have hdone {l : Bool} {t : State} : GoesOn (complete l t) := goesOn_complete l t
  cases i with
  | createBuffer vd => exact hdone.withCapacity.withRegs
  | growBuffer vd => exact (hdone.withCapacity.ite (hdone.ite hdone.withCapacity)).withRegs
  | release vd => exact hdone.withRegs
  | copy vd va => exact (hdone.ite hdone.withSources).withRegs
  | fromS64 vd | fromU64 vd | fromF64 vd | fromF32 vd | decFfp32 vd | decExt80 vd | decQuad128 vd =>
    exact hdone.withSpan.withRegs
  | decMant vd => exact ((goesOn_raiseError _ _).ite hdone.withSpan).withRegs
  | loadRaw vd neg => exact hdone.withRegs
  | add vd va vb | sub vd va vb => exact hdone.withCapacity.withSources.withRegs
  | scaleTo vd => exact (hdone.ite (hdone.withCapacity.ite hdone)).withSources.withRegs
  | toU64 va | toF64 va => exact hdone.withSources.withRegs

/-- A command word goes on, accepted or rejected (R82, R85). -/
theorem runCommand_goesOn (w : Word) (s : State) : GoesOn (runCommand w s) := by
  cases hd : decode w with
  | error e => exact ⟨_, runCommand_error hd s⟩
  | ok i => rw [runCommand_ok hd]; exact exec_goesOn i s

theorem busWrite_goesOn (a : Addr) (n : Nat) (d : Word) (s : State) : GoesOn (busWrite a n d s) := by
  obtain ⟨-, -, heq⟩ | ⟨r, -, -, -, heq⟩ | ⟨-, heq⟩ := busWrite_cases a n d s
  · rw [heq]; exact runCommand_goesOn d s
  · exact ⟨_, heq⟩
  · exact ⟨_, heq⟩

theorem hostEvent_goesOn (e : HostEvent) (s : State) : GoesOn (hostEvent e s) := by
  cases e with
  | read a n => exact goesOn_next (busRead a n s)
  | write a n d => exact busWrite_goesOn a n d s
  | reset => exact goesOn_next (assertReset s)
end NoStop

section Map
/-! The map of R53 for the windows of the value registers, and where it has no register. -/
variable {p : Params} {a : Addr}

theorem legalAccess_four_iff : legalAccess a 4 = true ↔ a.toNat % 4 = 0 := by
  simp [legalAccess]

/-- The two ways to be illegal (R52). -/
theorem legalAccess_eq_false {n : Nat} (h : n ≠ 4 ∨ a.extractLsb' 0 2 ≠ 0#2) : legalAccess a n = false := by
  have hlow : a.extractLsb' 0 2 ≠ 0#2 → a.toNat % 4 ≠ 0 :=
    fun hne he => hne (BitVec.eq_of_toNat_eq (by simpa using he))
  simp only [legalAccess, Bool.and_eq_false_iff, beq_eq_false_iff_ne]
  exact h.imp_right hlow

theorem regAt_vctl {i : Nat} (hi : i < p.nv) (h : a.toNat = 0x400 + 0x80 * i) : regAt p a = some (.vctl i) :=
  regAt_window p (off := 0x00) hi (by decide) h

theorem regAt_vscale {i : Nat} (hi : i < p.nv) (h : a.toNat = 0x404 + 0x80 * i) : regAt p a = some (.vscale i) :=
  regAt_window p (off := 0x04) hi (by decide) (by omega)

theorem regAt_mag {i k : Nat} (hi : i < p.nv) (hk : k < 16) (h : a.toNat = 0x440 + 0x80 * i + 4 * k) :
    regAt p a = some (.mag i k) := by
  have hword : (0x40 + 4 * k - 0x40) / 4 = k := by omega
  rw [regAt_window p (off := 0x40 + 4 * k) hi (by omega) (by omega), valueRegAt, if_neg (by omega), if_neg (by omega),
    if_pos (by omega), hword]

/-- Between VSCALE and the MAG words a value register's window has no register (R53). -/
theorem valueRegAt_gap {i off : Nat} (h : 0x08 ≤ off) (h' : off < 0x40) : valueRegAt i off = none := by
  rw [valueRegAt, if_neg (by omega), if_neg (by omega), if_neg (by omega)]

/-- The ranges that R53 lists as unmapped have no register. -/
theorem regAt_unmapped (h : Unmapped p a.toNat) : regAt p a = none := by
  obtain ⟨-, hlow | hmid | ⟨i, hi, hgap⟩ | habove⟩ := h
  · rw [regAt_above_singles p (by omega), if_neg (by omega), if_neg (by omega)]
  · rw [regAt_above_singles p (by omega), if_neg (by omega), if_neg (by omega)]
  · rw [regAt_window p (off := a.toNat - (0x400 + 0x80 * i)) hi (by omega) (by omega)]
    exact valueRegAt_gap (by omega) (by omega)
  · rw [regAt_above_singles p (by omega), if_neg (by omega), if_neg (by omega)]
end Map

section BusErrors
/-! The accesses that set BUS_ERR and do nothing else (R52, R54, R55). -/
variable {s : State} {a : Addr} {n : Nat} {d : Word} {rest : List HostEvent}

/-- An illegal or unmapped read returns 0 and sets BUS_ERR (R52, R54). -/
theorem step_read_rejected (hp : s.pending = .read a n :: rest)
    (hno : legalAccess a n = false ∨ regAt s.cfg a = none) :
    step s = .next { s with
      pending := rest, returned := s.returned ++ [0#32], status := { s.status with busErr := true } } := by
  rw [step_cons hp, hostEvent]
  obtain ⟨r, hl, hr, -⟩ | ⟨-, heq⟩ := busRead_cases a n { s with pending := rest }
  · rw [hl, show regAt s.cfg a = some r from hr] at hno
    simp at hno
  · rw [heq]; rfl

/-- An illegal or unmapped write runs no command and sets BUS_ERR (R52, R54). -/
theorem step_write_rejected (hp : s.pending = .write a n d :: rest)
    (hno : legalAccess a n = false ∨ regAt s.cfg a = none) :
    step s = .next { s with pending := rest, status := { s.status with busErr := true } } := by
  have hmapped {r : WindowReg} (hl : legalAccess a n = true) (hr : regAt s.cfg a = some r) : False := by
    rw [hl, hr] at hno
    simp at hno
  rw [step_cons hp, hostEvent]
  obtain ⟨hl, hr, -⟩ | ⟨r, -, hl, hr, -⟩ | ⟨-, heq⟩ := busWrite_cases a n d { s with pending := rest }
  · exact (hmapped hl hr).elim
  · exact (hmapped hl hr).elim
  · rw [heq]; rfl

/-- The registers that the host cannot write (R55). -/
def WindowReg.ReadOnly : WindowReg → Prop
  | .id | .cap | .resLo | .resHi | .vctl _ | .vscale _ | .mag _ _ => True
  | .cmd | .status | .arg | .dinLen | .din _ => False

theorem WindowReg.ReadOnly.ne_cmd {r : WindowReg} (h : r.ReadOnly) : r ≠ .cmd := by
  rintro rfl; exact h

/-- A write to a read-only register is a bus error (R55). -/
theorem writeReg_readOnly {r : WindowReg} (h : r.ReadOnly) : writeReg d s r = busError s := by
  cases r with
  | id | cap | resLo | resHi | vctl | vscale | mag => rfl
  | cmd | status | arg | dinLen | din => exact h.elim

/-- Each address that R55 calls read-only is 4-aligned and holds a read-only register. -/
theorem regAt_readOnly {p : Params} (h : ReadOnlyAt p a.toNat) :
    a.toNat % 4 = 0 ∧ ∃ r, regAt p a = some r ∧ r.ReadOnly := by
  obtain h | h | h | h | ⟨i, hi, h | h | ⟨k, hk, h⟩⟩ := h
  · exact ⟨by omega, .id, BitVec.eq_of_toNat_eq (y := 0x000#12) h ▸ regAt_id p, trivial⟩
  · exact ⟨by omega, .cap, BitVec.eq_of_toNat_eq (y := 0x004#12) h ▸ regAt_cap p, trivial⟩
  · exact ⟨by omega, .resLo, BitVec.eq_of_toNat_eq (y := 0x018#12) h ▸ regAt_resLo p, trivial⟩
  · exact ⟨by omega, .resHi, BitVec.eq_of_toNat_eq (y := 0x01C#12) h ▸ regAt_resHi p, trivial⟩
  · exact ⟨by omega, _, regAt_vctl hi h, trivial⟩
  · exact ⟨by omega, _, regAt_vscale hi h, trivial⟩
  · exact ⟨by omega, _, regAt_mag hi hk h, trivial⟩
end BusErrors

section Words
/-! A word of a byte array: four cells at their places, so the 32-bit digit of the integer the array denotes (R56,
R58). -/
variable {n k : Nat} {cells : List Byte}

/-- In an array of `n` cells every missing cell reads 0. -/
theorem cellAt_eq_getD (h : cells.length = n) (j : Nat) : cellAt n cells j = cells.getD j 0#8 := by
  unfold cellAt
  split_ifs with hj
  · rfl
  · rw [List.getD_eq_default _ _ (by omega)]

/-- The word is the sum of its lanes. -/
theorem packWord_eq (n : Nat) (cells : List Byte) (k : Nat) : packWord n cells k =
    BitVec.ofNat 32 ((cellAt n cells (4 * k)).toNat + 2 ^ 8 * (cellAt n cells (4 * k + 1)).toNat +
      2 ^ 16 * (cellAt n cells (4 * k + 2)).toNat + 2 ^ 24 * (cellAt n cells (4 * k + 3)).toNat) := by
  have h0 := (cellAt n cells (4 * k)).isLt
  have h1 := (cellAt n cells (4 * k + 1)).isLt
  have h2 := (cellAt n cells (4 * k + 2)).isLt
  simp only [packWord, ← BitVec.ofNat_toNat]
  rw [ofNat_or_shiftLeft _ h0, ofNat_or_shiftLeft _ (by omega), ofNat_or_shiftLeft _ (by omega)]

/-- Lane `m` of the word is cell `4k + m` (R56). -/
theorem extractLsb'_packWord {m : Nat} (hm : m < 4) :
    (packWord n cells k).extractLsb' (8 * m) 8 = cellAt n cells (4 * k + m) := by
  have h0 := (cellAt n cells (4 * k)).isLt
  have h1 := (cellAt n cells (4 * k + 1)).isLt
  have h2 := (cellAt n cells (4 * k + 2)).isLt
  have h3 := (cellAt n cells (4 * k + 3)).isLt
  apply BitVec.eq_of_toNat_eq
  rw [BitVec.extractLsb'_toNat, packWord_eq, BitVec.toNat_ofNat, Nat.shiftRight_eq_div_pow]
  obtain rfl | rfl | rfl | rfl : m = 0 ∨ m = 1 ∨ m = 2 ∨ m = 3 := by omega
  · rw [Nat.add_zero (4 * k)]; omega
  all_goals omega

/-- The bytes from `j` on: byte `j`, then the bytes above it. -/
theorem leNat_drop_eq (cells : List Byte) (j : Nat) :
    leNat (cells.drop j) = (cells.getD j 0#8).toNat + 256 * leNat (cells.drop (j + 1)) := by
  rw [leNat_headD_tail, List.tail_drop, List.headD_eq_head?_getD, List.head?_drop, List.getD_eq_getElem?_getD]

/-- Word `k` is digit `k` in base 2^32 of the integer the array denotes (R58). -/
theorem packWord_eq_digit (h : cells.length = n) (k : Nat) :
    packWord n cells k = BitVec.ofNat 32 (leNat cells / 2 ^ (32 * k)) := by
  have hshift : (256 : Nat) ^ (4 * k) = 2 ^ (32 * k) := by
    rw [show (256 : Nat) = 2 ^ 8 from rfl, ← pow_mul]; congr 1; omega
  rw [← hshift, ← leNat_drop, leNat_drop_eq, leNat_drop_eq _ (4 * k + 1), leNat_drop_eq _ (4 * k + 2),
    leNat_drop_eq _ (4 * k + 3), packWord_eq]
  simp only [cellAt_eq_getD h]
  apply BitVec.eq_of_toNat_eq
  simp only [BitVec.toNat_ofNat]
  omega

/-- A stored word's lanes read back in the cells that exist; every other cell reads as before (R56). -/
theorem cellAt_unpackWord {j : Nat} (h : cells.length = n) (hj : j < n) (w : Word) :
    cellAt n (unpackWord n k w cells) j =
      if 4 * k ≤ j ∧ j < 4 * k + 4 then w.extractLsb' (8 * (j - 4 * k)) 8 else cellAt n cells j := by
  simp only [unpackWord, cellAt_setCell, length_setCell, h, hj, and_true]
  by_cases hlane : 4 * k ≤ j ∧ j < 4 * k + 4
  · rw [if_pos hlane]
    obtain rfl | rfl | rfl | rfl : j = 4 * k ∨ j = 4 * k + 1 ∨ j = 4 * k + 2 ∨ j = 4 * k + 3 := by omega
    all_goals simp
  · rw [if_neg hlane, if_neg (by omega), if_neg (by omega), if_neg (by omega), if_neg (by omega)]

/-- VCTL as a sum of fields (R53). -/
theorem ctlWord_eq (r : ValueReg) :
    r.ctlWord = BitVec.ofNat 32 (r.alloc.toNat + 2 * r.sign.toNat + 2 ^ 8 * r.len) := by
  have halloc := r.alloc.toNat_le
  have hsign := r.sign.toNat_le
  simp only [ValueReg.ctlWord, bitAt_eq, BitVec.shiftLeft_zero]
  rw [ofNat_or_shiftLeft _ (by omega), ofNat_or_shiftLeft _ (by omega), pow_one]

/-- All cells of a well-formed register denote its magnitude: they are 0 from LEN on (R23). -/
theorem leNat_mag {m : Nat} {r : ValueReg} (h : r.Wf m) : leNat r.mag = r.magNat := by
  obtain ⟨hlength, hlen, hzero, -⟩ := h
  have htail : leNat (r.mag.drop r.len) = 0 := by
    rw [List.eq_replicate_of_mem hzero, leNat_zeros]
  rw [leNat_take_add_drop r.len r.mag (hlength ▸ hlen), htail, Nat.mul_zero, Nat.add_zero]
  rfl
end Words

/-- Settles O12: with nothing pending the block idles, and every host event goes on (`hostEvent_goesOn`), a command
included (`exec_goesOn`). -/
theorem everyStepAnswersANextState : Obligations.EveryStepAnswersANextState := by
  intro s
  cases hp : s.pending with
  | nil => exact ⟨s, by rw [step, serveHost, hp]⟩
  | cons e rest => rw [step_cons hp]; exact hostEvent_goesOn e _

/-- Settles O13: the access is not the one that `legalAccess` lets through. -/
theorem illegalAccessOnlySetsBusErr : Obligations.IllegalAccessOnlySetsBusErr := by
  intro s a n d rest hillegal
  have hno : legalAccess a n = false ∨ regAt s.cfg a = none := .inl (legalAccess_eq_false hillegal)
  exact ⟨fun hp => step_read_rejected hp hno, fun hp => step_write_rejected hp hno⟩

/-- Settles O14: the map has no register there (`regAt_unmapped`). -/
theorem unmappedAccessOnlySetsBusErr : Obligations.UnmappedAccessOnlySetsBusErr := by
  intro s a d rest _ hun
  have hno : legalAccess a 4 = false ∨ regAt s.cfg a = none := .inr (regAt_unmapped hun)
  exact ⟨fun hp => step_read_rejected hp hno, fun hp => step_write_rejected hp hno⟩

/-- Settles O15: the address holds a read-only register (`regAt_readOnly`), whose write is a bus error; STATUS and CMD
are registers of their own. -/
theorem readOnlyWriteOnlySetsBusErr : Obligations.ReadOnlyWriteOnlySetsBusErr := by
  refine fun s a d rest _ => ⟨fun hp hro => ?_, fun hp => step_write hp rfl (regAt_status _) (by simp),
    fun hp => step_read hp rfl (regAt_cmd _) rfl⟩
  obtain ⟨halign, r, hr, hread⟩ := regAt_readOnly hro
  rw [step_write hp (legalAccess_four_iff.mpr halign) hr hread.ne_cmd, writeReg_readOnly hread]
  rfl

/-- Settles O19: each address is its register's, and the words are those of `ctlWord_eq` and `packWord_eq_digit`, on the
cells that denote the magnitude (`leNat_mag`). -/
theorem valueRegisterWindowReads : Obligations.ValueRegisterWindowReads := by
  intro s rest i k a hwf hi hk row hrow ha hp
  have hreg := reg_wf hwf i
  have ⟨hcells, _⟩ := hreg
  have hmag : readReg s (.mag i.toNat k) = BitVec.ofNat 32 ((s.reg i).magNat / 2 ^ (32 * k)) :=
    (packWord_eq_digit hcells k).trans (by rw [leNat_mag hreg])
  simp only [List.mem_cons, List.not_mem_nil, or_false] at hrow
  obtain rfl | rfl | rfl := hrow
  · exact step_read hp (legalAccess_four_iff.mpr (by omega)) (regAt_vctl hi ha) (ctlWord_eq _)
  · exact step_read hp (legalAccess_four_iff.mpr (by omega)) (regAt_vscale hi ha) rfl
  · exact step_read hp (legalAccess_four_iff.mpr (by omega)) (regAt_mag hi hk ha) hmag

/-- Settles O20: a DIN write stores its lanes cell by cell (`cellAt_unpackWord`), and a DIN read's lanes are the cells
(`extractLsb'_packWord`). -/
theorem dinWordsPackFourBytes : Obligations.DinWordsPackFourBytes := by
  intro s rest k a d ⟨_, _, _, hdin, _⟩ hk ha
  have hlegal : legalAccess a 4 = true := legalAccess_four_iff.mpr (by omega)
  have hreg := regAt_din s.cfg hk ha
  refine ⟨fun hp => ⟨unpackWord s.cfg.maxLen k d s.din, step_write hp hlegal hreg (by simp),
    (length_unpackWord _ _ _ _).trans hdin, fun j hj => ?_⟩,
    fun hp => ⟨_, step_read hp hlegal hreg rfl, fun m hm => extractLsb'_packWord hm⟩⟩
  rw [← cellAt_eq_getD ((length_unpackWord _ _ _ _).trans hdin), ← cellAt_eq_getD hdin, cellAt_unpackWord hdin hj]

/-- Settles O21: DIN_LEN is the register at 0x014, and it is at most P_MAXLEN, so it fits the word's low byte. -/
theorem dinLenWriteStoresTheMinimum : Obligations.DinLenWriteStoresTheMinimum := by
  intro s rest d ⟨⟨_, ⟨_, hmax⟩, _⟩, _, _, _, hspan⟩
  have hbyte : s.dinLen < 2 ^ 8 := by omega
  refine ⟨fun hp => step_write hp rfl (regAt_dinLen _) (by simp),
    fun hp => ⟨_, step_read hp rfl (regAt_dinLen _) rfl, ?_, BitVec.eq_of_toNat_eq ?_⟩⟩
  all_goals
    simp only [readReg, BitVec.extractLsb'_toNat, BitVec.toNat_ofNat, Nat.shiftRight_eq_div_pow]
    omega

/-- Settles O23: a read delivers one word, from the register or with a bus error (`busRead_cases`). -/
theorem readsHaveNoSideEffect : Obligations.ReadsHaveNoSideEffect := by
  intro s a n rest hp
  rw [step_cons hp, hostEvent]
  obtain ⟨r, -, -, heq⟩ | ⟨-, heq⟩ := busRead_cases a n { s with pending := rest }
  · exact ⟨_, s.status.busErr, id, by rw [heq]; rfl⟩
  · exact ⟨0#32, true, fun _ => rfl, by rw [heq]; rfl⟩

end Sys2Proof.Machine
end

section
/-! The command word (R80 to R85). A word is its six fields (`word_eq_iff`), so decoding, encoding and the rows of the
opcode map are compared field by field: decoding inverts encoding and encoding inverts decoding (O1, O2, O3), and a word
meets a row exactly when it passes the decoder's checks for that row's command (O4, O6). Of the checks of R82 only
BAD_REG needs P_NV; every command makes it first (O7). -/

namespace Sys2Proof

section Fields
/-! The fields of R80: they are read back from where `encodeFields` puts them, and together they are the whole word. -/
variable (op : Opcode) (vd va vb : RegIdx) (neg : Bool) (w m : Word)

/-- A field is read back from its own place. -/
theorem extractLsb'_field {k n : Nat} (x : BitVec n) (h : k + n ≤ 32) :
    (x.setWidth 32 <<< k).extractLsb' k n = x := by
  ext i hi
  have hword : k + i < 32 := by omega
  simp [BitVec.getElem_extractLsb', hword, hi]

/-- A field contributes nothing to the places below and above its own. -/
theorem extractLsb'_field_apart {k n j l : Nat} (x : BitVec n) (h : j + l ≤ k ∨ k + n ≤ j) :
    (x.setWidth 32 <<< k).extractLsb' j l = 0#l := by
  ext i hi
  simp only [BitVec.getElem_extractLsb', BitVec.getLsbD_shiftLeft, BitVec.getLsbD_setWidth, BitVec.getElem_zero,
    Bool.and_eq_false_iff]
  by_cases hk : j + i < k
  · simp [hk]
  · exact .inr (.inr (BitVec.getLsbD_of_ge _ _ (by omega)))

/-- S is the one bit of its field. -/
theorem ofBool_sField : BitVec.ofBool (sField w) = w.extractLsb' 20 1 := by
  ext i hi
  obtain rfl : i = 0 := by omega
  simp [sField]

/-- So S is compared as a field of one bit. -/
theorem sField_eq_iff {b : Bool} : sField w = b ↔ w.extractLsb' 20 1 = BitVec.ofBool b := by
  rw [← ofBool_sField]
  cases sField w <;> cases b <;> decide

/-- Reading a field of `encodeFields` reads it from each of the five parts. -/
theorem extractLsb'_encodeFields (j l : Nat) :
    (encodeFields op vd va vb neg).extractLsb' j l =
      (op.code.setWidth 32 <<< 0).extractLsb' j l ||| (vd.setWidth 32 <<< 8).extractLsb' j l |||
        (va.setWidth 32 <<< 12).extractLsb' j l ||| (vb.setWidth 32 <<< 16).extractLsb' j l |||
          ((BitVec.ofBool neg).setWidth 32 <<< 20).extractLsb' j l := by
  simp only [encodeFields, BitVec.extractLsb'_or, BitVec.shiftLeft_zero]

@[simp] theorem opcField_encodeFields : opcField (encodeFields op vd va vb neg) = op.code := by
  simp (disch := omega) only [opcField, extractLsb'_encodeFields, extractLsb'_field, extractLsb'_field_apart,
    BitVec.or_zero]

@[simp] theorem vdField_encodeFields : vdField (encodeFields op vd va vb neg) = vd := by
  simp (disch := omega) only [vdField, extractLsb'_encodeFields, extractLsb'_field, extractLsb'_field_apart,
    BitVec.or_zero, BitVec.zero_or]

@[simp] theorem vaField_encodeFields : vaField (encodeFields op vd va vb neg) = va := by
  simp (disch := omega) only [vaField, extractLsb'_encodeFields, extractLsb'_field, extractLsb'_field_apart,
    BitVec.or_zero, BitVec.zero_or]

@[simp] theorem vbField_encodeFields : vbField (encodeFields op vd va vb neg) = vb := by
  simp (disch := omega) only [vbField, extractLsb'_encodeFields, extractLsb'_field, extractLsb'_field_apart,
    BitVec.or_zero, BitVec.zero_or]

@[simp] theorem sField_encodeFields : sField (encodeFields op vd va vb neg) = neg := by
  simp (disch := omega) only [sField_eq_iff, extractLsb'_encodeFields, extractLsb'_field, extractLsb'_field_apart,
    BitVec.zero_or]

@[simp] theorem rsvField_encodeFields : rsvField (encodeFields op vd va vb neg) = 0#11 := by
  simp (disch := omega) only [rsvField, extractLsb'_encodeFields, extractLsb'_field_apart, BitVec.or_zero]

/-- The six fields of R80 are the whole word. -/
theorem word_eq_iff : w = m ↔ opcField w = opcField m ∧ vdField w = vdField m ∧ vaField w = vaField m ∧
    vbField w = vbField m ∧ sField w = sField m ∧ rsvField w = rsvField m := by
  refine ⟨by rintro rfl; simp, fun ⟨hop, hvd, hva, hvb, hs, hrsv⟩ => BitVec.eq_of_toNat_eq ?_⟩
  rw [sField_eq_iff, ofBool_sField] at hs
  simp only [opcField, vdField, vaField, vbField, rsvField, ← BitVec.toNat_inj, BitVec.extractLsb'_toNat,
    Nat.shiftRight_eq_div_pow] at hop hvd hva hvb hs hrsv
  omega

/-- A word with no reserved bit is its fields in place (R84). -/
theorem encodeFields_eq (hop : opcField w = op.code) (hrsv : rsvField w = 0#11) :
    encodeFields op (vdField w) (vaField w) (vbField w) (sField w) = w := by
  simp [word_eq_iff, hop, hrsv]
end Fields

section Decoder
/-! Decoding and encoding are inverse to each other (R82, R84). -/
variable {op : Opcode} {vd va vb : RegIdx} {neg : Bool} {w : Word} {i : Instr}

/-- The opcode map finds each command by its OPC, and no other command has that OPC (R84). -/
theorem opcodeOf_eq_some_iff {b : BitVec 8} : opcodeOf b = some op ↔ b = op.code := by
  constructor
  · intro h
    have hcode := List.find?_some h
    exact (beq_iff_eq.mp hcode).symm
  · rintro rfl
    cases op <;> rfl

/-- The checks of R82 that a word passes exactly when it decodes, and the command it then stands for. -/
theorem decode_eq_ok_iff_fields : decode w = .ok i ↔ ∃ op : Opcode, opcField w = op.code ∧ rsvField w = 0#11 ∧
    unusedNonzero op.uses w = false ∧ op.build (vdField w) (vaField w) (vbField w) (sField w) = i := by
  simp only [← opcodeOf_eq_some_iff]
  cases hop : opcodeOf (opcField w) with
  | none => simp [decode, hop]
  | some op =>
    rw [decode, hop]
    dsimp only
    split_ifs with hrsv hunused
    · simp [hrsv]
    · simp [hunused]
    · simp [not_not.mp hrsv, hunused]

/-- Each field is used or 0 (R82). -/
theorem unusedNonzero_eq_false_iff {u : FieldUse} : unusedNonzero u w = false ↔
    (u.vd = false → vdField w = 0#4) ∧ (u.va = false → vaField w = 0#4) ∧ (u.vb = false → vbField w = 0#4) ∧
      (u.s = false → sField w = false) := by
  simp [unusedNonzero, and_assoc]

/-- The word of a command that an opcode builds is the opcode's fields in place, when each unused one is 0 (R84). -/
theorem encode_build (h : unusedNonzero op.uses (encodeFields op vd va vb neg) = false) :
    encode (op.build vd va vb neg) = encodeFields op vd va vb neg := by
  simp only [unusedNonzero_eq_false_iff, vdField_encodeFields, vaField_encodeFields, vbField_encodeFields,
    sField_encodeFields] at h
  obtain ⟨hvd, hva, hvb, hs⟩ := h
  cases op with
  | createBuffer | growBuffer | release | fromS64 | fromU64 | fromF64 | fromF32 | decMant | decFfp32 | decExt80
  | decQuad128 | scaleTo => rw [hva rfl, hvb rfl, hs rfl]; rfl
  | copy => rw [hvb rfl, hs rfl]; rfl
  | loadRaw => rw [hva rfl, hvb rfl]; rfl
  | add | sub => rw [hs rfl]; rfl
  | toU64 | toF64 => rw [hvd rfl, hvb rfl, hs rfl]; rfl

/-- Every command is what its opcode builds from some fields, the unused ones 0 (R83, R84). -/
theorem exists_build (i : Instr) : ∃ vd va vb neg, i.opcode.build vd va vb neg = i ∧
    unusedNonzero i.opcode.uses (encodeFields i.opcode vd va vb neg) = false := by
  simp only [unusedNonzero_eq_false_iff, vdField_encodeFields, vaField_encodeFields, vbField_encodeFields,
    sField_encodeFields]
  cases i with
  | createBuffer vd | growBuffer vd | release vd | fromS64 vd | fromU64 vd | fromF64 vd | fromF32 vd | decMant vd
  | decFfp32 vd | decExt80 vd | decQuad128 vd | scaleTo vd =>
    exact ⟨vd, 0, 0, false, rfl, by simp [Instr.opcode, Opcode.uses]⟩
  | copy vd va => exact ⟨vd, va, 0, false, rfl, by simp [Instr.opcode, Opcode.uses]⟩
  | loadRaw vd neg => exact ⟨vd, 0, 0, neg, rfl, by simp [Instr.opcode, Opcode.uses]⟩
  | add vd va vb | sub vd va vb => exact ⟨vd, va, vb, false, rfl, by simp [Instr.opcode, Opcode.uses]⟩
  | toU64 va | toF64 va => exact ⟨0, va, 0, false, rfl, by simp [Instr.opcode, Opcode.uses]⟩

/-- A command's opcode is the one that built it. -/
theorem opcode_build (op : Opcode) (vd va vb : RegIdx) (neg : Bool) : (op.build vd va vb neg).opcode = op := by
  cases op <;> rfl

/-- Decoding inverts encoding: the word's fields pass the checks and build the command again (R82, R84). -/
theorem decode_encode (i : Instr) : decode (encode i) = .ok i := by
  obtain ⟨vd, va, vb, neg, hbuild, hunused⟩ := exists_build i
  have hencode : encode i = encodeFields i.opcode vd va vb neg := by rw [← encode_build hunused, hbuild]
  rw [hencode, decode_eq_ok_iff_fields]
  exact ⟨i.opcode, by simp, by simp, hunused, by simpa using hbuild⟩

/-- Encoding inverts decoding: the checks leave no bit outside the command's fields (R82). -/
theorem encode_of_decode (h : decode w = .ok i) : encode i = w := by
  obtain ⟨op, hop, hrsv, hunused, rfl⟩ := decode_eq_ok_iff_fields.mp h
  have hword := encodeFields_eq op w hop hrsv
  rw [encode_build (by rwa [hword]), hword]
end Decoder

section Rows
/-! A row of the opcode map frees exactly the used fields of its command (R84). -/
variable (op : Opcode) (w m : Word)

theorem opcField_and : opcField (w &&& m) = opcField w &&& opcField m := BitVec.extractLsb'_and
theorem vdField_and : vdField (w &&& m) = vdField w &&& vdField m := BitVec.extractLsb'_and
theorem vaField_and : vaField (w &&& m) = vaField w &&& vaField m := BitVec.extractLsb'_and
theorem vbField_and : vbField (w &&& m) = vbField w &&& vbField m := BitVec.extractLsb'_and
theorem sField_and : sField (w &&& m) = (sField w && sField m) := BitVec.getLsbD_and
theorem rsvField_and : rsvField (w &&& m) = rsvField w &&& rsvField m := BitVec.extractLsb'_and

/-- The fields of a row's mask: OPC and RSV are compared whole, and every other field exactly if it is unused. -/
theorem maskWord_fields : opcField op.maskWord = BitVec.allOnes 8 ∧
    vdField op.maskWord = (if op.uses.vd then 0#4 else BitVec.allOnes 4) ∧
    vaField op.maskWord = (if op.uses.va then 0#4 else BitVec.allOnes 4) ∧
    vbField op.maskWord = (if op.uses.vb then 0#4 else BitVec.allOnes 4) ∧
    sField op.maskWord = !op.uses.s ∧ rsvField op.maskWord = BitVec.allOnes 11 := by
  cases op <;> decide

/-- A row's match is OPC alone. -/
theorem matchWord_eq : op.matchWord = encodeFields op 0 0 0 false := by
  cases op <;> rfl

/-- A masked field that the row compares only if it is unused. -/
theorem and_ite_eq_zero_iff (x : RegIdx) (used : Bool) :
    x &&& (if used then 0#4 else BitVec.allOnes 4) = 0#4 ↔ (used = false → x = 0#4) := by
  cases used
  · rw [if_neg Bool.false_ne_true, BitVec.and_allOnes, imp_iff_right rfl]
  · simp

/-- A word meets a row exactly when it passes the decoder's checks for the row's command (R82). -/
theorem meets_row_iff : w &&& op.maskWord = op.matchWord ↔
    opcField w = op.code ∧ rsvField w = 0#11 ∧ unusedNonzero op.uses w = false := by
  obtain ⟨hop, hvd, hva, hvb, hs, hrsv⟩ := maskWord_fields op
  have hbit : (sField w && !op.uses.s) = false ↔ (op.uses.s = false → sField w = false) := by
    cases op.uses.s <;> simp
  rw [word_eq_iff, matchWord_eq, unusedNonzero_eq_false_iff]
  simp only [opcField_and, vdField_and, vaField_and, vbField_and, sField_and, rsvField_and, hop, hvd, hva, hvb, hs,
    hrsv, opcField_encodeFields, vdField_encodeFields, vaField_encodeFields, vbField_encodeFields,
    sField_encodeFields, rsvField_encodeFields, BitVec.and_allOnes, BitVec.ofNat_eq_ofNat, and_ite_eq_zero_iff, hbit]
  tauto

/-- A word decodes to a command of an opcode exactly when it meets the opcode's row (R82). -/
theorem decodes_iff_meets_row : (∃ i, decode w = .ok i ∧ i.opcode = op) ↔ w &&& op.maskWord = op.matchWord := by
  simp only [decode_eq_ok_iff_fields, meets_row_iff]
  constructor
  · rintro ⟨_, ⟨op', hop, hrsv, hunused, rfl⟩, rfl⟩
    rw [opcode_build]
    exact ⟨hop, hrsv, hunused⟩
  · rintro ⟨hop, hrsv, hunused⟩
    exact ⟨_, ⟨op, hop, hrsv, hunused, rfl⟩, opcode_build ..⟩

/-- The rows that R84 prints are the masks and the matches of the 18 opcodes. -/
theorem opcodeMap_eq : Machine.opcodeMap = Opcode.all.map fun op => (op, op.maskWord, op.matchWord) := rfl

/-- Every opcode is in the map (R84). -/
theorem Opcode.mem_all (op : Opcode) : op ∈ Opcode.all := by
  cases op <;> decide
end Rows

/-- Settles O2: the fields of a command's word are its opcode's, and the decoder's checks pass (`decode_encode`). -/
theorem decodeInvertsEncode : Obligations.DecodeInvertsEncode := decode_encode

/-- Settles O3: the checks of R82 leave no bit of the word outside the command's fields (`encode_of_decode`). -/
theorem encodeInvertsDecode : Obligations.EncodeInvertsDecode := fun _ _ => encode_of_decode

/-- Settles O4: each printed row is an opcode's mask and match, which select the words that decode to its commands
(`decodes_iff_meets_row`). -/
theorem opcodeMapRowsSelectCommands : Obligations.OpcodeMapRowsSelectCommands := by
  rw [Obligations.OpcodeMapRowsSelectCommands, opcodeMap_eq, List.forall_mem_map]
  exact fun op _ w => decodes_iff_meets_row op w

/-- Settles O1: each accepted word is the word of its command (`decode_encode`), and each rejected one fails the named
check. -/
theorem specWordsDecodeAsWritten : Obligations.SpecWordsDecodeAsWritten :=
  ⟨decode_encode (.createBuffer 3), decode_encode (.copy 1 1), decode_encode (.fromS64 1), decode_encode (.decMant 7),
    decode_encode (.loadRaw 1 true), decode_encode (.sub 3 0 1), decode_encode (.scaleTo 2), decode_encode (.toU64 3),
    by decide, by decide, by decide⟩

end Sys2Proof

namespace Sys2Proof.Machine

/-- A word that no row selects is rejected (R82, R85). -/
theorem exists_decode_eq_error {w : Word} (h : ∀ row ∈ opcodeMap, w &&& row.2.1 ≠ row.2.2) :
    ∃ e, decode w = .error e := by
  rw [opcodeMap_eq, List.forall_mem_map] at h
  cases hd : decode w with
  | error e => exact ⟨e, rfl⟩
  | ok i => exact absurd ((decodes_iff_meets_row i.opcode w).mp ⟨i, hd, rfl⟩) (h i.opcode i.opcode.mem_all)

/-- Every command makes the BAD_REG check of its used fields before anything else (R82). -/
theorem exec_eq_withRegs (i : Instr) (s : State) : ∃ k, exec i s = withRegs i.regs s k := by
  cases i <;> exact ⟨_, rfl⟩

/-- Some named register is missing: the check fails. -/
theorem withRegs_neg {rs : List RegIdx} {s : State} (k : Result) (h : ∃ r ∈ rs, s.cfg.nv ≤ r.toNat) :
    withRegs rs s k = .next (s.failed .badReg) := by
  obtain ⟨hall, -⟩ | ⟨-, hfail⟩ := withRegs_cases rs s k
  · obtain ⟨r, hr, hmissing⟩ := h
    exact absurd (hall r hr) (Nat.not_lt.mpr hmissing)
  · exact hfail

/-- Settles O6: a word that no row selects is rejected (`exists_decode_eq_error`), and each reason is reported as
ILLEGAL_CMD. -/
theorem illegalCommandWordChangesOnlyStatus : Obligations.IllegalCommandWordChangesOnlyStatus := by
  intro s w rest hp hrows
  obtain ⟨e, hreject⟩ := exists_decode_eq_error hrows
  rw [step_cons hp, hostEvent, busWrite_cmd, runCommand_error hreject]

/-- Settles O7: the BAD_REG check comes first in every command (`exec_eq_withRegs`), and it fails. -/
theorem missingRegisterReportsBadReg : Obligations.MissingRegisterReportsBadReg := by
  intro i s hmissing
  obtain ⟨k, hexec⟩ := exec_eq_withRegs i s
  rw [hexec, withRegs_neg k hmissing]

end Sys2Proof.Machine
end

section
/-! Buffer management and copy (40_buffer.md, R100 to R103; O25 to O29). Each command is its guards and then one
register written whole: `complete_commit` says what `Commit` of at most LEN bytes leaves, `commit_self` that a register
committed with its own fields is a copy of it. The isolation of R103 is then the frame of every command (O58). -/

namespace Sys2Proof.Machine

/-- The row of an opcode selects exactly the words of the commands that the opcode builds (R82, R84). -/
theorem selectedBy_row (op : Opcode) {p : Instr → Prop} (h : ∀ i, p i ↔ ∃ vd va vb neg, op.build vd va vb neg = i) :
    SelectedBy op.maskWord op.matchWord p := by
  intro w
  have hrow (i : Instr) : p i ↔ i.opcode = op := by
    rw [h i]
    constructor
    · rintro ⟨vd, va, vb, neg, rfl⟩
      exact opcode_build ..
    · rintro rfl
      obtain ⟨vd, va, vb, neg, hbuild, -⟩ := exists_build i
      exact ⟨vd, va, vb, neg, hbuild⟩
  simp only [hrow, decodes_iff_meets_row]

section Guards
/-! Each check, when its condition is known. -/
variable {s : State} (k : Result)

theorem withCapacity_pos {n : Nat} (h : n ≤ s.cfg.maxLen) : withCapacity n s k = k :=
  if_neg (Nat.not_lt.mpr h)

theorem withCapacity_neg {n : Nat} (h : s.cfg.maxLen < n) : withCapacity n s k = .next (s.failed .capacity) :=
  if_pos h

/-- The one named register exists. -/
theorem withRegs_one {i : RegIdx} (h : i.toNat < s.cfg.nv) : withRegs [i] s k = k :=
  withRegs_pos k (by simpa using h)

/-- The one source register is not empty. -/
theorem withSources_pos {i : RegIdx} (h : (s.reg i).alloc = true) : withSources [i] s k = k :=
  if_pos (by simpa using h)

theorem withSources_neg {i : RegIdx} (h : (s.reg i).alloc = false) :
    withSources [i] s k = .next (s.failed .emptyOperand) :=
  if_neg (by simpa using h)
end Guards

section Commits
variable {s : State} {vd : RegIdx} {n : Nat} {sg l : Bool} {sc : Word} {b : List Byte}

/-- A command that completes after writing one register whole (R223). -/
theorem complete_setReg (r : ValueReg) : complete l (s.setReg vd r) = .next (s.wrote vd r l) := rfl

/-- `Commit` of at most LEN bytes fills the rest of the magnitude with zeros: the integer is that of the bytes (R9). -/
theorem complete_commit (hb : b.length ≤ n) (hn : n ≤ s.cfg.maxLen) :
    complete l (commit vd n sg sc b s) = .next (s.wrote vd (.holding s.cfg.maxLen n sg sc (leNat b)) l) := by
  rw [commit, List.take_of_length_le hb, fitTo_eq_leBytes _ _ (hb.trans hn), complete_setReg]
  rfl

/-- A register committed with its own fields is copied whole: its MAG is already zero from LEN on (R23, R103). -/
theorem commit_self {r : ValueReg} (hr : r.Wf s.cfg.maxLen) (ha : r.alloc = true) :
    commit vd r.len r.sign r.scale r.mag s = s.setReg vd r := by
  have ⟨_, hlen, _⟩ := hr
  have hbytes : commit vd r.len r.sign r.scale r.mag s = commit vd r.len r.sign r.scale r.bytes s := by
    simp only [commit, ValueReg.bytes, List.take_take, Nat.min_self]
  rw [hbytes, commit_eq_wrote _ _ _ _ _ _ (length_bytes hr) hlen, ← ValueReg.magNat, ← eq_holding hr ha]

theorem reg_wrote_same (r : ValueReg) (h : vd.toNat < s.v.length) : (s.wrote vd r l).reg vd = r :=
  reg_setReg_same s vd r h

theorem reg_wrote_other (r : ValueReg) {j : RegIdx} (h : j ≠ vd) : (s.wrote vd r l).reg j = s.reg j :=
  reg_setReg_other s vd j r h
end Commits

section Commands
/-! The four commands on registers that exist, one equation per branch. -/
variable {s : State} {vd va : RegIdx}

theorem exec_createBuffer (hvd : vd.toNat < s.cfg.nv) : exec (.createBuffer vd) s =
    withCapacity s.arg.toNat s (complete false (commit vd s.arg.toNat (s.reg vd).sign (s.reg vd).scale [] s)) :=
  withRegs_one _ hvd

/-- GROW_BUFFER on an empty register is CREATE_BUFFER (R101). -/
theorem exec_growBuffer_empty (hvd : vd.toNat < s.cfg.nv) (he : (s.reg vd).alloc = false) :
    exec (.growBuffer vd) s = withCapacity s.arg.toNat s (complete false (commit vd s.arg.toNat false 0#32 [] s)) :=
  (withRegs_one _ hvd).trans (if_pos he)

theorem exec_growBuffer_of_le (hvd : vd.toNat < s.cfg.nv) (ha : (s.reg vd).alloc = true)
    (hle : s.arg.toNat ≤ (s.reg vd).len) : exec (.growBuffer vd) s = .next (s.completed false) :=
  (withRegs_one _ hvd).trans ((if_neg (by simp [ha])).trans (if_pos hle))

theorem exec_growBuffer_of_lt (hvd : vd.toNat < s.cfg.nv) (ha : (s.reg vd).alloc = true)
    (hlt : (s.reg vd).len < s.arg.toNat) : exec (.growBuffer vd) s = withCapacity s.arg.toNat s
      (complete false (commit vd s.arg.toNat (s.reg vd).sign (s.reg vd).scale (s.reg vd).bytes s)) :=
  (withRegs_one _ hvd).trans ((if_neg (by simp [ha])).trans (if_neg (Nat.not_le.mpr hlt)))

theorem exec_release (hvd : vd.toNat < s.cfg.nv) :
    exec (.release vd) s = .next (s.wrote vd (ValueReg.empty s.cfg.maxLen) false) :=
  withRegs_one _ hvd

/-- A self-copy is no copy: it checks no source (R103). -/
theorem exec_copy_self (hvd : vd.toNat < s.cfg.nv) : exec (.copy vd vd) s = .next (s.completed false) :=
  (withRegs_pos _ (by simpa using hvd)).trans (if_pos rfl)

theorem exec_copy_of_ne (hvd : vd.toNat < s.cfg.nv) (hva : va.toNat < s.cfg.nv) (hne : vd ≠ va) :
    exec (.copy vd va) s = withSources [va] s
      (complete false (commit vd (s.reg va).len (s.reg va).sign (s.reg va).scale (s.reg va).mag s)) :=
  (withRegs_pos _ (by simpa using ⟨hvd, hva⟩)).trans (if_neg hne)

/-- A copy of an allocated register leaves it whole in the destination (R103). -/
theorem exec_copy_alloc (h : s.Wf) (hvd : vd.toNat < s.cfg.nv) (hva : va.toNat < s.cfg.nv) (hne : vd ≠ va)
    (ha : (s.reg va).alloc = true) : exec (.copy vd va) s = .next (s.wrote vd (s.reg va) false) := by
  rw [exec_copy_of_ne hvd hva hne, withSources_pos _ ha, commit_self (reg_wf h va) ha, complete_setReg]
end Commands

/-- Settles O25: `Commit` of no bytes at LEN ARG is the zero magnitude (`complete_commit`). -/
theorem createBufferAllocatesZeros : Obligations.CreateBufferAllocatesZeros := by
  refine ⟨selectedBy_row .createBuffer (by simp [Opcode.build, eq_comm]), fun s vd _ hvd => ?_⟩
  rw [exec_createBuffer hvd]
  refine ⟨fun hroom => ?_, withCapacity_neg _⟩
  rw [withCapacity_pos _ hroom, complete_commit (Nat.zero_le _) hroom, leNat_nil]

/-- Settles O26: each clause is one branch; a well-formed register is no longer than P_MAXLEN, so an ARG above P_MAXLEN
always asks for more room. -/
theorem growBufferKeepsTheMagnitude : Obligations.GrowBufferKeepsTheMagnitude := by
  refine ⟨selectedBy_row .growBuffer (by simp [Opcode.build, eq_comm]), fun s vd h hvd => ⟨?_, ?_, ?_, ?_⟩⟩
  · intro hempty hroom
    rw [exec_growBuffer_empty hvd hempty, withCapacity_pos _ hroom, complete_commit (Nat.zero_le _) hroom, leNat_nil]
  · exact exec_growBuffer_of_le hvd
  · intro ha hlt hroom
    have hfits : (s.reg vd).bytes.length ≤ s.arg.toNat := (length_bytes (reg_wf h vd)).trans_le hlt.le
    rw [exec_growBuffer_of_lt hvd ha hlt, withCapacity_pos _ hroom, complete_commit hfits hroom, ValueReg.magNat]
  · intro hbig
    cases ha : (s.reg vd).alloc with
    | false => rw [exec_growBuffer_empty hvd ha, withCapacity_neg _ hbig]
    | true => rw [exec_growBuffer_of_lt hvd ha ((len_le_maxLen h vd).trans_lt hbig), withCapacity_neg _ hbig]

/-- Settles O27: RELEASE has one branch (`exec_release`), and the fields listed are those of the empty register. -/
theorem releaseEmptiesTheRegister : Obligations.ReleaseEmptiesTheRegister :=
  ⟨selectedBy_row .release (by simp [Opcode.build, eq_comm]), fun _ _ => exec_release⟩

/-- Settles O28: the two branches of COPY, and the check of its source. -/
theorem copyDuplicatesTheRegister : Obligations.CopyDuplicatesTheRegister := by
  refine ⟨selectedBy_row .copy (by simp [Opcode.build, eq_comm]), fun s vd va h hvd hva => ⟨?_, ?_, ?_⟩⟩
  · rintro rfl
    exact exec_copy_self hvd
  · exact exec_copy_alloc h hvd hva
  · intro hne hempty
    rw [exec_copy_of_ne hvd hva hne, withSources_neg _ hempty]

/-- Settles O29: after the copy V[vd] and V[va] are both what V[va] was, and a command changes no register but its
destination (`commandsChangeOnlyTheirResults`, O58). -/
theorem copyIsIndependentOfItsSource : Obligations.CopyIsIndependentOfItsSource := by
  intro s t u vd va i h hvd hva hne ha hcopy hexec
  have ⟨_, hnv, _⟩ := h
  obtain rfl : s.wrote vd (s.reg va) false = t :=
    Host.Outcome.next.inj ((exec_copy_alloc h hvd hva hne ha).symm.trans hcopy)
  obtain ⟨-, -, -, -, -, -, -, hframe, -⟩ := commandsChangeOnlyTheirResults i _ u hexec
  refine ⟨fun hother => ?_, fun hdest => ?_⟩
  · rw [hframe vd hother, reg_wrote_same _ (hnv ▸ hvd)]
  · have hsource : destOf i ≠ some va := by simpa [hdest] using hne
    rw [hframe va hsource, reg_wrote_other _ hne.symm]

end Sys2Proof.Machine
end

section
/-! Mantissa extraction (41_mantissa.md, R120 to R126; O30, O31). At every legal width, odd or even, the mask of the top
byte is 0x7F (`topMask_of_legal`). So the extractor keeps the integer of its field modulo `2^(8n-1)`
(`leNat_extractMantissa`). -/

namespace Sys2Proof.Machine

section Extractor
variable {w : Nat} (f : List Byte)

/-- In the odd case a legal width leaves 7 bits of the top byte, as many as the even case keeps (R125). -/
theorem topMask_of_legal : ∀ w ∈ legalWidths, topMask w = 0x7F#8 := by decide

/-- A legal field has a top byte (R120). -/
theorem fieldBytes_pos : ∀ w ∈ legalWidths, 0 < fieldBytes w := by decide

/-- The extractor's output with the mask of R125 in it. -/
theorem extractMantissa_of_legal (hw : w ∈ legalWidths) :
    extractMantissa f w = f.take (fieldBytes w - 1) ++ [f.getD (fieldBytes w - 1) 0#8 &&& 0x7F#8] := by
  rw [extractMantissa, topMask_of_legal w hw]

/-- Replacing the last byte keeps the bytes below it and nothing above. -/
theorem set_last (hf : 0 < f.length) (b : Byte) : f.set (f.length - 1) b = f.take (f.length - 1) ++ [b] := by
  have hnone : f.drop (f.length - 1 + 1) = [] := List.drop_eq_nil_of_le (by omega)
  rw [List.set_eq_take_append_cons_drop, if_pos (by omega), hnone]

/-- On a whole field the extractor clears bit 7 of the top byte and nothing else (R125). -/
theorem extractMantissa_eq_set (hw : w ∈ legalWidths) (hf : f.length = fieldBytes w) :
    extractMantissa f w = f.set (f.length - 1) (f.getD (f.length - 1) 0#8 &&& 0x7F#8) := by
  rw [set_last f (hf ▸ fieldBytes_pos w hw), extractMantissa_of_legal f hw, hf]

/-- The widths 63 and 64 have one field and one mask (R125). -/
theorem extractMantissa_63_eq_64 : extractMantissa f 63 = extractMantissa f 64 :=
  (extractMantissa_of_legal f (w := 63) (by decide)).trans (extractMantissa_of_legal f (w := 64) (by decide)).symm

/-- Clearing bit 7 of a byte is the remainder by 128. -/
theorem toNat_and_7F (b : Byte) : (b &&& 0x7F#8).toNat = b.toNat % 2 ^ 7 :=
  (BitVec.toNat_and ..).trans (Nat.and_two_pow_sub_one_eq_mod b.toNat 7)

/-- The byte at an index, without its bit 7, as a digit of the sequence's integer. -/
theorem toNat_getD_mod_128 (k : Nat) : (f.getD k 0#8).toNat % 2 ^ 7 = leNat f / 256 ^ k % 2 ^ 7 := by
  rw [← leNat_drop, leNat_drop_eq]
  omega

/-- The integer of the extracted mantissa: the field's, without its top bit (R126). -/
theorem leNat_extractMantissa (hw : w ∈ legalWidths) (hf : f.length = fieldBytes w) :
    leNat (extractMantissa f w) = leNat f % 2 ^ (8 * fieldBytes w - 1) := by
  obtain ⟨k, hk⟩ := Nat.exists_eq_add_one_of_ne_zero (fieldBytes_pos w hw).ne'
  have hlow : (f.take k).length = k := List.length_take_of_le (by omega)
  have hsplit : 2 ^ (8 * (k + 1) - 1) = 256 ^ k * 2 ^ 7 := by
    rw [show 8 * (k + 1) - 1 = 8 * k + 7 by omega, pow_add, pow_mul, show (2 : Nat) ^ 8 = 256 from rfl]
  calc leNat (extractMantissa f w)
      = leNat (f.take k) + 256 ^ k * ((f.getD k 0#8).toNat % 2 ^ 7) := by
        rw [extractMantissa_of_legal f hw, hk, Nat.add_sub_cancel, leNat_append, hlow, leNat_cons, leNat_nil,
          toNat_and_7F, Nat.mul_zero, Nat.add_zero]
    _ = leNat f % 256 ^ k + 256 ^ k * (leNat f / 256 ^ k % 2 ^ 7) := by rw [leNat_take, toNat_getD_mod_128]
    _ = leNat f % 2 ^ (8 * fieldBytes w - 1) := by rw [hk, hsplit, Nat.mod_mul]

theorem length_extractMantissa (hw : w ∈ legalWidths) (hf : f.length = fieldBytes w) :
    (extractMantissa f w).length = fieldBytes w := by
  rw [extractMantissa_eq_set f hw hf, List.length_set, hf]
end Extractor

section Guards
variable {s : State} {n : Nat} (k : Result)

/-- DIN_LEN covers the format. -/
theorem withSpan_pos (h : n ≤ s.dinLen) : withSpan n s k = k := if_neg (Nat.not_lt.mpr h)

theorem withSpan_neg (h : s.dinLen < n) : withSpan n s k = .next (s.failed .invalidInput) := if_pos h
end Guards

section Commands
/-! DEC_EXT80 and DEC_MANT on a register that exists, one equation per check passed. -/
variable {s : State} {vd : RegIdx}

theorem exec_decExt80 (hvd : vd.toNat < s.cfg.nv) : exec (.decExt80 vd) s = withSpan 10 s (complete false
    (commit vd s.cfg.extLen (topBit (s.dinByte 0)) s.exponent15
      (extractMantissa (s.dinDown 9 8) s.cfg.extMantW ++ [0#8, 0#8]) s)) :=
  withRegs_one _ hvd

/-- The width is checked before DIN_LEN (R126). -/
theorem exec_decMant_of_legal (hvd : vd.toNat < s.cfg.nv) (hw : s.argNat ∈ legalWidths) :
    exec (.decMant vd) s = withSpan (fieldBytes s.argNat) s (complete false
      (commit vd (fieldBytes s.argNat) false 0#32
        (extractMantissa (s.dinUp 0 (fieldBytes s.argNat)) s.argNat) s)) :=
  (withRegs_one _ hvd).trans (if_neg (by simpa using hw))

theorem exec_decMant_of_illegal (hvd : vd.toNat < s.cfg.nv) (hw : s.argNat ∉ legalWidths) :
    exec (.decMant vd) s = .next (s.failed .badWidth) :=
  (withRegs_one _ hvd).trans (if_pos (by simpa using hw))

/-- A legal field that DIN_LEN covers: V[vd] holds the field's integer without its top bit (R126). -/
theorem exec_decMant_of_span (h : s.Wf) (hvd : vd.toNat < s.cfg.nv) (hw : s.argNat ∈ legalWidths)
    (hspan : fieldBytes s.argNat ≤ s.dinLen) : exec (.decMant vd) s = .next (s.wrote vd
      (.holding s.cfg.maxLen (fieldBytes s.argNat) false 0#32
        (leNat (s.din.take (fieldBytes s.argNat)) % 2 ^ (8 * fieldBytes s.argNat - 1))) false) := by
  have ⟨_, _, _, hdin, hdinLen⟩ := h
  have hroom : fieldBytes s.argNat ≤ s.cfg.maxLen := hspan.trans hdinLen
  have hfield : s.dinUp 0 (fieldBytes s.argNat) = s.din.take (fieldBytes s.argNat) := dinUp_eq s 0 _ (by omega)
  have hlen : (s.dinUp 0 (fieldBytes s.argNat)).length = fieldBytes s.argNat := length_dinUp ..
  rw [exec_decMant_of_legal hvd hw, withSpan_pos _ hspan,
    complete_commit (length_extractMantissa _ hw hlen).le hroom, leNat_extractMantissa _ hw hlen, hfield]
end Commands

/-- The same block built with P_EXT_MANT_W = `m` (R6). -/
def State.withExtMantW (s : State) (m : Nat) : State := { s with cfg := { s.cfg with extMantW := m } }

@[simp] theorem withExtMantW_extMantW (s : State) (m : Nat) : (s.withExtMantW m).cfg.extMantW = m := rfl

/-- P_EXT_MANT_W reaches DEC_EXT80 only as the extractor's width, where 63 and 64 agree (R125). The checks
do not read it: each `by exact` is the check's condition in `s` itself, used for both builds. -/
theorem decExt80_same_for_63_64 {s t u : State} {vd : RegIdx}
    (ht : exec (.decExt80 vd) (s.withExtMantW 63) = .next t) (hu : exec (.decExt80 vd) (s.withExtMantW 64) = .next u) :
    { u with cfg := t.cfg } = t := by
  by_cases hvd : vd.toNat < s.cfg.nv
  · rw [exec_decExt80 (by exact hvd), withExtMantW_extMantW] at ht hu
    rw [extractMantissa_63_eq_64] at ht
    by_cases hspan : 10 ≤ s.dinLen
    · rw [withSpan_pos _ (by exact hspan), complete_eq] at ht hu
      cases ht
      cases hu
      rfl
    · rw [withSpan_neg _ (by exact Nat.lt_of_not_le hspan)] at ht hu
      cases ht
      cases hu
      rfl
  · have hmissing : ∃ r ∈ (Instr.decExt80 vd).regs, s.cfg.nv ≤ r.toNat :=
      ⟨vd, List.mem_singleton_self vd, Nat.le_of_not_lt hvd⟩
    rw [missingRegisterReportsBadReg _ _ (by exact hmissing)] at ht hu
    cases ht
    cases hu
    rfl

/-- Settles O30: the mask of every legal width is 0x7F (`topMask_of_legal`), so the three statements follow. -/
theorem extractorClearsOnlyTheTopBit : Obligations.ExtractorClearsOnlyTheTopBit :=
  ⟨fun _ hw f hf => extractMantissa_eq_set f hw hf, fun f _ => extractMantissa_63_eq_64 f,
    fun _ _ _ _ => decExt80_same_for_63_64⟩

/-- Settles O31: one clause per check of DEC_MANT, and the integer that the extractor keeps (`leNat_extractMantissa`). -/
theorem decMantExtractsTheField : Obligations.DecMantExtractsTheField := by
  refine ⟨selectedBy_row .decMant (by simp [Opcode.build, eq_comm]), fun s vd h hvd => ⟨?_, ?_, ?_⟩⟩
  · exact exec_decMant_of_span h hvd
  · intro hw hshort
    rw [exec_decMant_of_legal hvd hw]
    exact withSpan_neg _ hshort
  · exact exec_decMant_of_illegal hvd

end Sys2Proof.Machine
end

section
/-! The native-type constructors (42_native.md, R140 to R146; O32 to O37) and the integer round trip through RES (O52).
Each constructor commits the fields of one little-endian integer of DIN: `toNat_dinByte` and `exponentField` read its
sign and its exponent, `leNat_mantissaField` its magnitude, and `leNat_complementWithCarry` negates it. Re-assembly is
one fact about words: fields that leave no gap between them make up the whole word (`eq_fields_of_cover`). -/

namespace Sys2Proof.Machine

section DinFields
/-! Fields of the `n`-byte little-endian integer at DIN[0] (R140). -/
variable {s : State} {n : Nat}

/-- Up to 16 bytes from DIN[0] are DIN's own lowest bytes: every block has them (R6, R28). -/
theorem dinUp_zero (h : s.Wf) (hn : n ≤ 16) : s.dinUp 0 n = s.din.take n := by
  have ⟨_, _, _, hdin, _⟩ := h
  have hmax := sixteen_le_maxLen h
  exact dinUp_eq s 0 n (by omega)

/-- A byte of the field is a digit of its integer in base 256. -/
theorem toNat_dinByte {j : Nat} (hj : j < n) : (s.dinByte j).toNat = leNat (s.din.take n) / 256 ^ j % 256 := by
  have hbyte : s.dinByte j = (s.din.take n).getD j 0#8 := by
    simp [State.dinByte, List.getD_eq_getElem?_getD, hj]
  have hlt : (s.dinByte j).toNat < 256 := (s.dinByte j).isLt
  rw [← leNat_drop, leNat_drop_eq, ← hbyte]
  omega

/-- Bit 7 of the field's last byte is the top bit of its integer: the sign of every native type (R141, R143, R144). -/
theorem topBit_dinByte {j : Nat} (hj : j < n) : topBit (s.dinByte j) = (leNat (s.din.take n)).testBit (8 * j + 7) := by
  have hdigit : (2 : Nat) ^ (8 * j + 7) = 256 ^ j * 2 ^ 7 := by rw [pow_add, pow_mul]; rfl
  rw [topBit, ← BitVec.testBit_toNat, toNat_dinByte hj, Nat.testBit_eq_decide_div_mod_eq,
    Nat.testBit_eq_decide_div_mod_eq, hdigit, ← Nat.div_div_eq_div_mul]
  exact decide_eq_decide.mpr (by omega)

/-- An exponent field: the upper `k` bits of one byte, and above them the low 7 bits of the next (R143, R144). -/
theorem exponentField {p j k : Nat} (hp : p + 1 < n) (hjk : j + k = 8) :
    (low7 (s.dinByte (p + 1)) <<< k) ||| (s.dinByte p >>> j).setWidth 32 =
      BitVec.ofNat 32 (leNat (s.din.take n) / 2 ^ (8 * p + j) % 2 ^ (k + 7)) := by
  have hbyte : (256 : Nat) = 2 ^ j * 2 ^ k := by rw [← pow_add, hjk]; rfl
  have hplace : (2 : Nat) ^ (8 * p + j) = 256 ^ p * 2 ^ j := by rw [pow_add, pow_mul]; rfl
  have hlo : (s.dinByte p).toNat / 2 ^ j = leNat (s.din.take n) / 256 ^ p / 2 ^ j % 2 ^ k := by
    rw [toNat_dinByte (Nat.lt_of_succ_lt hp)]
    generalize leNat (s.din.take n) / 256 ^ p = q
    rw [hbyte, Nat.mod_mul_right_div_self]
  have hhi : (s.dinByte (p + 1)).toNat % 2 ^ 7 = leNat (s.din.take n) / 256 ^ p / 2 ^ j / 2 ^ k % 2 ^ 7 := by
    rw [toNat_dinByte hp, pow_succ, Nat.div_div_eq_div_mul _ (2 ^ j), ← hbyte, Nat.div_div_eq_div_mul,
      Nat.mod_mod_of_dvd _ (by norm_num)]
  rw [hplace, ← Nat.div_div_eq_div_mul, pow_add 2 k, Nat.mod_mul, ← hlo, ← hhi,
    ← ofNat_or_shiftLeft _ (hlo ▸ Nat.mod_lt _ (Nat.two_pow_pos k)), BitVec.or_comm, low7, ← BitVec.ofNat_toNat,
    ← BitVec.ofNat_toNat, toNat_and_7F, BitVec.toNat_ushiftRight, Nat.shiftRight_eq_div_pow]

/-- A mantissa field of `m` bytes, below the `n`-byte integer's sign and exponent (R127). -/
theorem leNat_mantissaField (h : s.Wf) {m w : Nat} (hw : w ∈ legalWidths) (hm : fieldBytes w = m) (hmn : m ≤ n)
    (hfits : m ≤ 16) :
    leNat (extractMantissa (s.dinUp 0 m) w ++ [0#8]) = leNat (s.din.take n) % 2 ^ (8 * m - 1) := by
  have hlen : (s.dinUp 0 m).length = fieldBytes w := by rw [length_dinUp, hm]
  have hlow : s.dinUp 0 m = (s.din.take n).take m := by
    rw [dinUp_zero h hfits, List.take_take, Nat.min_eq_left hmn]
  have hdvd : 2 ^ (8 * m - 1) ∣ 256 ^ m := by
    rw [show (256 : Nat) = 2 ^ 8 from rfl, ← pow_mul]
    exact Nat.pow_dvd_pow 2 (Nat.sub_le ..)
  rw [leNat_append, leNat_extractMantissa _ hw hlen, hm, hlow, leNat_take, Nat.mod_mod_of_dvd _ hdvd]
  rfl

end DinFields

section Negation
/-! Two's complement, byte by byte (R141). -/

theorem length_complementWithCarry (f : List Byte) (c : Nat) : (complementWithCarry f c).length = f.length := by
  induction f generalizing c with
  | nil => rfl
  | cons x xs ih => rw [complementWithCarry, List.length_cons, ih, List.length_cons]

/-- The complement plus the carry in, modulo the width: the carry out of the last byte is lost (R141). -/
theorem leNat_complementWithCarry (f : List Byte) {c : Nat} (hc : c ≤ 1) :
    leNat (complementWithCarry f c) = (256 ^ f.length - 1 - leNat f + c) % 256 ^ f.length := by
  induction f generalizing c with
  | nil => simp [complementWithCarry, Nat.mod_one]
  | cons x xs ih =>
    have hx : x.toNat < 256 := x.isLt
    have hxs := leNat_lt xs
    have hnot : (~~~x).toNat = 255 - x.toNat := BitVec.toNat_not
    have hcarry : (255 - x.toNat + c) / 256 ≤ 1 := by omega
    have hsum : 256 ^ (xs.length + 1) - 1 - (x.toNat + 256 * leNat xs) + c =
        (255 - x.toNat + c) + 256 * (256 ^ xs.length - 1 - leNat xs) := by rw [pow_succ]; omega
    rw [complementWithCarry, leNat_cons, leNat_cons, List.length_cons, hnot, ih hcarry, hsum, pow_succ',
      Nat.mod_mul, BitVec.toNat_ofNat]
    congr 1
    · exact (Nat.add_mul_mod_self_left ..).symm
    · rw [Nat.add_mul_div_left _ _ (by norm_num), Nat.add_comm (_ / 256)]

/-- The sign and the magnitude that FROM_S64 computes are those of the two's-complement integer (R141). -/
theorem signMagnitude_of_s64 {f : List Byte} (hf : f.length = 8) {x : Int}
    (hx : x = (BitVec.ofNat 64 (leNat f)).toInt) : (leNat f).testBit 63 = decide (x < 0) ∧
      leNat (if decide (x < 0) then complementWithCarry f 1 else f) = x.natAbs := by
  have hlt : leNat f < 256 ^ 8 := hf ▸ leNat_lt f
  have hneg : leNat (complementWithCarry f 1) = (256 ^ 8 - 1 - leNat f + 1) % 256 ^ 8 :=
    hf ▸ leNat_complementWithCarry f le_rfl
  rw [BitVec.toInt_eq_toNat_cond, BitVec.toNat_ofNat, Nat.mod_eq_of_lt (by exact hlt)] at hx
  refine ⟨Nat.testBit_eq_decide_div_mod_eq.trans (decide_eq_decide.mpr ?_), ?_⟩
  · split_ifs at hx <;> omega
  · by_cases hx0 : x < 0
    · rw [if_pos (decide_eq_true hx0), hneg]
      split_ifs at hx <;> omega
    · rw [if_neg (by simpa using hx0)]
      split_ifs at hx <;> omega

end Negation

/-- The sign and the magnitude of an integer denote it. -/
theorem withSign_natAbs (x : Int) : withSign (decide (x < 0)) x.natAbs = x := by
  by_cases hx : x < 0
  · rw [decide_eq_true hx, withSign_true]; omega
  · rw [decide_eq_false hx, withSign_false]; omega

section Commands
/-! The four constructors and TO_U64 on a register that exists. The integers are those of DIN's lowest bytes. -/
variable {s : State} {vd : RegIdx}

/-- A command that requires `k` bytes of DIN and then commits: its two outcomes (R141 to R144). -/
theorem withSpan_commit {k n : Nat} {sg : Bool} {sc : Word} {b : List Byte} (hb : b.length ≤ n)
    (hn : n ≤ s.cfg.maxLen) :
    (k ≤ s.dinLen → withSpan k s (complete false (commit vd n sg sc b s)) =
      .next (s.wrote vd (.holding s.cfg.maxLen n sg sc (leNat b)) false)) ∧
    (s.dinLen < k → withSpan k s (complete false (commit vd n sg sc b s)) = .next (s.failed .invalidInput)) :=
  ⟨fun hspan => (withSpan_pos _ hspan).trans (complete_commit hb hn), withSpan_neg _⟩

/-- A binary float of `p + 2` bytes, whose exponent's `k` lowest bits are the upper bits of byte `p`: sign, exponent
and magnitude are each the bits of the integer that their place in the bytes says (R127, R143, R144). -/
theorem withSpan_commit_float (h : s.Wf) {p j k w : Nat} (hw : w ∈ legalWidths) (hp : fieldBytes w = p + 1)
    (hjk : j + k = 8) (hfits : p + 2 ≤ 16) :
    let d := leNat (s.din.take (p + 2))
    let r := withSpan (p + 2) s (complete false (commit vd (p + 2) (topBit (s.dinByte (p + 1)))
      ((low7 (s.dinByte (p + 1)) <<< k) ||| (s.dinByte p >>> j).setWidth 32)
      (extractMantissa (s.dinUp 0 (p + 1)) w ++ [0#8]) s))
    (p + 2 ≤ s.dinLen → r = .next (s.wrote vd (.holding s.cfg.maxLen (p + 2) (d.testBit (8 * (p + 1) + 7))
      (BitVec.ofNat 32 (d / 2 ^ (8 * p + j) % 2 ^ (k + 7))) (d % 2 ^ (8 * (p + 1) - 1))) false)) ∧
    (s.dinLen < p + 2 → r = .next (s.failed .invalidInput)) := by
  intro d
  have hroom : p + 2 ≤ s.cfg.maxLen := hfits.trans (sixteen_le_maxLen h)
  have hmag : leNat (extractMantissa (s.dinUp 0 (p + 1)) w ++ [0#8]) = d % 2 ^ (8 * (p + 1) - 1) :=
    leNat_mantissaField h hw hp (Nat.le_succ _) (by omega)
  have hlen : (extractMantissa (s.dinUp 0 (p + 1)) w).length = p + 1 := by
    rw [length_extractMantissa _ hw (by rw [length_dinUp, hp]), hp]
  rw [topBit_dinByte (Nat.lt_succ_self (p + 1)), exponentField (Nat.lt_succ_self (p + 1)) hjk, ← hmag]
  exact withSpan_commit (by rw [List.length_append, hlen]; rfl) hroom

theorem exec_fromS64 (hvd : vd.toNat < s.cfg.nv) : exec (.fromS64 vd) s = withSpan 8 s (complete false
    (commit vd 8 (topBit (s.dinByte 7)) 0#32
      (if topBit (s.dinByte 7) then complementWithCarry (s.dinUp 0 8) 1 else s.dinUp 0 8) s)) :=
  withRegs_one _ hvd

theorem exec_fromU64 (hvd : vd.toNat < s.cfg.nv) :
    exec (.fromU64 vd) s = withSpan 8 s (complete false (commit vd 8 false 0#32 (s.dinUp 0 8) s)) :=
  withRegs_one _ hvd

theorem exec_fromF64 (hvd : vd.toNat < s.cfg.nv) : exec (.fromF64 vd) s = withSpan 8 s (complete false
    (commit vd 8 (topBit (s.dinByte 7)) ((low7 (s.dinByte 7) <<< 4) ||| (s.dinByte 6 >>> 4).setWidth 32)
      (extractMantissa (s.dinUp 0 7) 52 ++ [0#8]) s)) :=
  withRegs_one _ hvd

theorem exec_fromF32 (hvd : vd.toNat < s.cfg.nv) : exec (.fromF32 vd) s = withSpan 4 s (complete false
    (commit vd 4 (topBit (s.dinByte 3)) ((low7 (s.dinByte 3) <<< 1) ||| (s.dinByte 2 >>> 7).setWidth 32)
      (extractMantissa (s.dinUp 0 3) 23 ++ [0#8]) s)) :=
  withRegs_one _ hvd

/-- TO_U64's result and its loss bit, in integers (R188). -/
theorem narrowU64_eq (neg : Bool) (m : List Byte) (c : Nat) : narrowU64 neg m c =
    (BitVec.ofInt 64 (withSign neg (leNat m / 256 ^ c)), decide (leNat m % 256 ^ c ≠ 0 ∨ 2 ^ 64 ≤ leNat m / 256 ^ c ∨
      (neg = true ∧ leNat m / 256 ^ c ≠ 0))) := by
  have hfraction : (m.take c).any (fun b => b != 0#8) = decide (leNat m % 256 ^ c ≠ 0) := by
    rw [← leNat_take, Bool.eq_iff_iff, decide_eq_true_iff, Ne, leNat_eq_zero_iff, Bool.not_eq_false]
  rw [narrowU64, leNat_drop, hfraction, Prod.mk.injEq]
  generalize leNat m / 256 ^ c = t
  constructor
  · apply BitVec.eq_of_toNat_eq
    rw [BitVec.toNat_ofInt, BitVec.toNat_ofNat]
    cases neg
    · rw [if_neg Bool.false_ne_true, withSign_false]; omega
    · rw [if_pos rfl, withSign_true]; omega
  · simp only [Bool.decide_or, Bool.decide_and, Bool.decide_eq_true, decide_not, Bool.or_assoc, bne, beq_eq_decide]

theorem exec_toU64_of_alloc {va : RegIdx} (hva : va.toNat < s.cfg.nv) (ha : (s.reg va).alloc = true) :
    exec (.toU64 va) s = .next
      { s.completed (narrowU64 (s.reg va).sign (s.reg va).bytes (s.reg va).scale.toNat).2 with
        res := (narrowU64 (s.reg va).sign (s.reg va).bytes (s.reg va).scale.toNat).1 } :=
  (withRegs_one _ hva).trans (withSources_pos _ ha)

/-- TO_U64 of a register that a command has just written with an integer of 64 bits (R188). -/
theorem exec_toU64_wrote (h : s.Wf) (hvd : vd.toNat < s.cfg.nv) {sg l : Bool} {m : Nat} (hm : m < 2 ^ 64) {u : State}
    (hu : exec (.toU64 vd) (s.wrote vd (.holding s.cfg.maxLen 8 sg 0#32 m) l) = .next u) :
    u.res = BitVec.ofInt 64 (withSign sg m) ∧ u.status.lossy = (sg && m != 0) := by
  have ⟨_, hnv, _⟩ := h
  have hroom : 8 ≤ s.cfg.maxLen := le_trans (by norm_num) (sixteen_le_maxLen h)
  have hreg : (s.wrote vd (.holding s.cfg.maxLen 8 sg 0#32 m) l).reg vd = .holding s.cfg.maxLen 8 sg 0#32 m :=
    reg_wrote_same _ (hnv ▸ hvd)
  have hmag : leNat (ValueReg.holding s.cfg.maxLen 8 sg 0#32 m).bytes = m := magNat_holding _ _ _ _ _ hroom hm
  have hnarrow : narrowU64 sg (ValueReg.holding s.cfg.maxLen 8 sg 0#32 m).bytes 0 =
      (BitVec.ofInt 64 (withSign sg m), sg && m != 0) := by
    rw [narrowU64_eq, hmag, pow_zero, Nat.div_one, Nat.mod_one, Prod.mk.injEq]
    refine ⟨rfl, ?_⟩
    simp only [Nat.not_le.mpr hm, ne_eq, not_true_eq_false, false_or, Bool.decide_and, Bool.decide_eq_true, decide_not,
      bne, beq_eq_decide]
  rw [exec_toU64_of_alloc (by exact hvd) (by rw [hreg]; rfl), hreg] at hu
  cases hu
  exact ⟨congrArg Prod.fst hnarrow, congrArg Prod.snd hnarrow⟩

end Commands

/-- Settles O32: the sign is the integer's top bit, and the complement of a negative one is its absolute value
(`signMagnitude_of_s64`). -/
theorem fromS64StoresSignAndMagnitude : Obligations.FromS64StoresSignAndMagnitude := by
  refine ⟨selectedBy_row .fromS64 (by simp [Opcode.build, eq_comm]), fun s vd h hvd => ?_⟩
  intro x
  have hmax := sixteen_le_maxLen h
  have hlen : (s.dinUp 0 8).length = 8 := length_dinUp ..
  rw [dinUp_zero h (by norm_num)] at hlen
  obtain ⟨hsign, hmag⟩ := signMagnitude_of_s64 hlen (x := x) rfl
  rw [exec_fromS64 hvd, topBit_dinByte (n := 8) (by norm_num), hsign, dinUp_zero h (by norm_num), ← hmag]
  refine withSpan_commit ?_ (by omega)
  split_ifs
  · rw [length_complementWithCarry, hlen]
  · rw [hlen]

/-- Settles O33: the eight bytes are the integer (R142). -/
theorem fromU64StoresTheBytes : Obligations.FromU64StoresTheBytes := by
  refine ⟨selectedBy_row .fromU64 (by simp [Opcode.build, eq_comm]), fun s vd h hvd => ?_⟩
  have hmax := sixteen_le_maxLen h
  rw [exec_fromU64 hvd, ← dinUp_zero h (by norm_num)]
  exact withSpan_commit (length_dinUp ..).le (by omega)

/-- Settles O34: a double is 8 bytes with 4 bits of the exponent in byte 6 (`withSpan_commit_float`). -/
theorem fromF64StoresTheFields : Obligations.FromF64StoresTheFields := by
  refine ⟨selectedBy_row .fromF64 (by simp [Opcode.build, eq_comm]), fun s vd h hvd => ?_⟩
  rw [exec_fromF64 hvd]
  exact withSpan_commit_float (p := 6) (j := 4) (k := 4) h (by decide) rfl rfl (by norm_num)

/-- Settles O35: a single is 4 bytes with 1 bit of the exponent in byte 2 (`withSpan_commit_float`). -/
theorem fromF32StoresTheFields : Obligations.FromF32StoresTheFields := by
  refine ⟨selectedBy_row .fromF32 (by simp [Opcode.build, eq_comm]), fun s vd h hvd => ?_⟩
  rw [exec_fromF32 hvd]
  exact withSpan_commit_float (p := 2) (j := 7) (k := 1) h (by decide) rfl rfl (by norm_num)

section Reassembly
/-! A word put together again from its fields (R145, R146). -/
variable {w : Nat}

/-- Bits `k + l - 1` to `k` of a word, at their place. -/
def fieldInPlace (x : BitVec w) (k l : Nat) : BitVec w := BitVec.ofNat w (x.toNat / 2 ^ k % 2 ^ l) <<< k

theorem getLsbD_fieldInPlace (x : BitVec w) (k l i : Nat) :
    (fieldInPlace x k l).getLsbD i = (decide (k ≤ i ∧ i < k + l) && x.getLsbD i) := by
  rw [fieldInPlace, BitVec.getLsbD_shiftLeft, BitVec.getLsbD_ofNat, Nat.testBit_mod_two_pow, Nat.testBit_div_two_pow,
    BitVec.testBit_toNat]
  by_cases hk : k ≤ i
  · by_cases hw : i < w
    · have hl : i - k < l ↔ i < k + l := by omega
      have hwk : i - k < w := by omega
      simp [hk, hw, hl, hwk, Nat.not_lt.mpr hk]
    · simp [hw, BitVec.getLsbD_of_ge x i (Nat.le_of_not_lt hw)]
  · simp [hk, Nat.lt_of_not_le hk]

/-- Three fields that leave no gap are the word; where two of them overlap they agree. -/
theorem eq_fields_of_cover (x : BitVec w) {k₁ l₁ k₂ l₂ l₃ : Nat} (h₁ : w ≤ k₁ + l₁) (h₂ : k₁ ≤ k₂ + l₂) (h₃ : k₂ ≤ l₃) :
    x = fieldInPlace x k₁ l₁ ||| fieldInPlace x k₂ l₂ ||| fieldInPlace x 0 l₃ := by
  apply BitVec.eq_of_getLsbD_eq
  intro i hi
  have hcover : (k₁ ≤ i ∧ i < k₁ + l₁) ∨ (k₂ ≤ i ∧ i < k₂ + l₂) ∨ (0 ≤ i ∧ i < 0 + l₃) := by omega
  simp only [BitVec.getLsbD_or, getLsbD_fieldInPlace, ← Bool.and_or_distrib_right, ← Bool.decide_or, or_assoc]
  rw [decide_eq_true hcover, Bool.true_and]

/-- The sign is the one-bit field at its place. -/
theorem sign_fieldInPlace (x : BitVec w) (k : Nat) :
    BitVec.ofNat w (x.toNat.testBit k).toNat <<< k = fieldInPlace x k 1 := by
  rw [Nat.toNat_testBit, fieldInPlace, pow_one]

theorem exponent_fieldInPlace (x : BitVec w) (k l : Nat) :
    BitVec.ofNat w (x.toNat / 2 ^ k % 2 ^ l) <<< k = fieldInPlace x k l := rfl

/-- The magnitude is the field at bit 0. -/
theorem magnitude_fieldInPlace (x : BitVec w) (l : Nat) : BitVec.ofNat w (x.toNat % 2 ^ l) = fieldInPlace x 0 l := by
  rw [fieldInPlace, pow_zero, Nat.div_one, BitVec.shiftLeft_zero]

end Reassembly

/-- Settles O36: the fields that FROM_F64 stores (O34) cover the double, with the magnitude cut at the exponent or
overlapping it. -/
theorem doubleReassemblyIsExact : Obligations.DoubleReassemblyIsExact := by
  intro s t vd d h hvd hspan hd hexec
  have ⟨_, hnv, _⟩ := h
  have hmax := sixteen_le_maxLen h
  obtain ⟨hstores, -⟩ := fromF64StoresTheFields.2 s vd h hvd
  obtain rfl := Host.Outcome.next.inj ((hstores hspan).symm.trans hexec)
  rw [reg_wrote_same _ (hnv ▸ hvd), magNat_holding _ _ _ _ _ (by omega) (by omega), hd]
  have hscale : (BitVec.ofNat 32 (d.toNat / 2 ^ 52 % 2 ^ 11)).setWidth 64 =
      BitVec.ofNat 64 (d.toNat / 2 ^ 52 % 2 ^ 11) := by
    apply BitVec.eq_of_toNat_eq
    simp only [BitVec.toNat_setWidth, BitVec.toNat_ofNat]
    omega
  have hmask : BitVec.ofNat 64 (d.toNat / 2 ^ 52 % 2 ^ 11) &&& 0x7FF#64 =
      BitVec.ofNat 64 (d.toNat / 2 ^ 52 % 2 ^ 11) := by
    rw [← BitVec.ofNat_and, Nat.and_two_pow_sub_one_eq_mod _ 11, Nat.mod_mod]
  have hlow : BitVec.ofNat 64 (d.toNat % 2 ^ 55) &&& BitVec.ofNat 64 (2 ^ 52 - 1) =
      BitVec.ofNat 64 (d.toNat % 2 ^ 52) := by
    rw [← BitVec.ofNat_and, Nat.and_two_pow_sub_one_eq_mod, Nat.mod_mod_of_dvd _ (by norm_num)]
  simp only [ValueReg.holding, hscale, hmask, hlow]
  simp only [sign_fieldInPlace, exponent_fieldInPlace, magnitude_fieldInPlace]
  exact ⟨eq_fields_of_cover d (by norm_num) (by norm_num) (by norm_num),
    eq_fields_of_cover d (by norm_num) (by norm_num) (by norm_num)⟩

/-- Settles O37: the fields that FROM_F32 stores (O35) cover the single. -/
theorem singleReassemblyIsExact : Obligations.SingleReassemblyIsExact := by
  intro s t vd f h hvd hspan hf hexec
  have ⟨_, hnv, _⟩ := h
  have hmax := sixteen_le_maxLen h
  obtain ⟨hstores, -⟩ := fromF32StoresTheFields.2 s vd h hvd
  obtain rfl := Host.Outcome.next.inj ((hstores hspan).symm.trans hexec)
  rw [reg_wrote_same _ (hnv ▸ hvd), magNat_holding _ _ _ _ _ (by omega) (by omega), hf]
  simp only [ValueReg.holding, sign_fieldInPlace, exponent_fieldInPlace, magnitude_fieldInPlace]
  exact eq_fields_of_cover f (by norm_num) (by norm_num) (by norm_num)

/-- Settles O52: TO_U64 returns the signed integer that the register denotes modulo 2^64 (`exec_toU64_wrote`), which is
the input read as FROM_U64 or as FROM_S64 reads it. -/
theorem integersRoundTripThroughRes : Obligations.IntegersRoundTripThroughRes := by
  intro s t u vd h hvd hspan hu
  have hlt : leNat (s.din.take 8) < 2 ^ 64 := by rw [leNat_take]; exact Nat.mod_lt _ (by norm_num)
  constructor
  · intro hfrom
    obtain ⟨hstores, -⟩ := fromU64StoresTheBytes.2 s vd h hvd
    obtain rfl := Host.Outcome.next.inj ((hstores hspan).symm.trans hfrom)
    obtain ⟨hres, hlossy⟩ := exec_toU64_wrote h hvd hlt hu
    refine ⟨?_, hlossy⟩
    rw [hres, withSign_false, BitVec.ofInt_natCast, BitVec.toNat_ofNat, Nat.mod_eq_of_lt hlt]
  · intro hfrom
    have hsmall : (BitVec.ofNat 64 (leNat (s.din.take 8))).toInt.natAbs < 2 ^ 64 := by
      have hx := (BitVec.ofNat 64 (leNat (s.din.take 8))).toInt_eq_toNat_cond
      split_ifs at hx <;> omega
    obtain ⟨hstores, -⟩ := fromS64StoresSignAndMagnitude.2 s vd h hvd
    obtain rfl := Host.Outcome.next.inj ((hstores hspan).symm.trans hfrom)
    obtain ⟨hres, hlossy⟩ := exec_toU64_wrote h hvd hsmall hu
    rw [hres, hlossy, withSign_natAbs, BitVec.ofInt_toInt, BitVec.toNat_ofNat, Nat.mod_eq_of_lt hlt]
    refine ⟨rfl, ?_⟩
    rw [Bool.and_eq_true, decide_eq_true_iff, bne_iff_ne, Int.natAbs_ne_zero, and_iff_left_of_imp ne_of_lt,
      BitVec.toInt_neg_iff, BitVec.toNat_ofNat, Nat.mod_eq_of_lt hlt]
    omega

end Sys2Proof.Machine
end

section
/-! The format decoders (43_format_decoders.md, R160 to R165; O38 to O41). A big-endian format is the little-endian one
of the same bytes in the opposite order (R161): `State.reverseDin` turns DIN's bytes round, and the facts about the
native types' little-endian fields (R140) then give sign, exponent and mantissa of the big-endian integer. -/

namespace Sys2Proof.Machine

/-- The same block with DIN[0..n-1] in the opposite order. -/
def State.reverseDin (s : State) (n : Nat) : State := { s with din := (s.din.take n).reverse ++ s.din.drop n }

section BigEndian
/-! The bytes of an `n`-byte big-endian input, as the little-endian bytes of the block with DIN turned round (R161). -/
variable {s : State} {n : Nat}

/-- No format is longer than DIN (R6, R28). -/
theorem le_length_din (h : s.Wf) (hn : n ≤ 16) : n ≤ s.din.length := by
  have ⟨_, _, _, hdin, _⟩ := h
  have hmax := sixteen_le_maxLen h
  omega

theorem reverseDin_wf (h : s.Wf) (n : Nat) : (s.reverseDin n).Wf := by
  have ⟨hcfg, hnv, hv, hdin, hspan⟩ := h
  refine ⟨hcfg, hnv, hv, Eq.trans ?_ hdin, hspan⟩
  simp only [State.reverseDin, List.length_append, List.length_reverse, List.length_take, List.length_drop]
  omega

/-- The big-endian input is the little-endian field at DIN[0] of the turned block. -/
theorem take_reverseDin (h : s.Wf) (hn : n ≤ 16) : (s.reverseDin n).din.take n = (s.din.take n).reverse :=
  List.take_left' (by rw [List.length_reverse, List.length_take_of_le (le_length_din h hn)])

/-- DIN[j], of weight 256^k in the big-endian input, is byte `k` of the turned block. -/
theorem dinByte_reverseDin (h : s.Wf) (hn : n ≤ 16) {j k : Nat} (hjk : j + k + 1 = n) :
    (s.reverseDin n).dinByte k = s.dinByte j := by
  have hlen := le_length_din h hn
  have htake : (s.din.take n).length = n := List.length_take_of_le hlen
  have hk : k < (s.din.take n).length := by omega
  have hmirror : (s.din.take n).length - 1 - k = j := by omega
  simp only [State.dinByte, State.reverseDin, List.getD_eq_getElem?_getD]
  rw [List.getElem?_append_left (by rwa [List.length_reverse]), List.getElem?_reverse hk, hmirror,
    List.getElem?_take_of_lt (by omega)]

/-- A big-endian field, read upwards in the turned block (R161). -/
theorem dinDown_eq_dinUp (h : s.Wf) (hn : n ≤ 16) {hi lo m : Nat} (hlo : hi + lo + 1 = n) (hm : m ≤ hi + 1) :
    s.dinDown hi m = (s.reverseDin n).dinUp lo m := by
  refine List.map_congr_left fun k hk => ?_
  have hk : k < m := List.mem_range.mp hk
  exact (dinByte_reverseDin h hn (by omega)).symm
end BigEndian

/-- A byte's low 7 bits are its remainder by 128. -/
theorem low7_eq (b : Byte) : low7 b = BitVec.ofNat 32 (b.toNat % 2 ^ 7) := by
  rw [low7, ← BitVec.ofNat_toNat, toNat_and_7F]

/-- High zero bytes do not change the integer (R8). -/
theorem leNat_append_zeros (a : List Byte) (k : Nat) : leNat (a ++ List.replicate k 0#8) = leNat a := by
  rw [leNat_append, leNat_zeros, Nat.mul_zero, Nat.add_zero]

section Commands
/-! The decoders on a register that exists, and the shape that DEC_EXT80 and DEC_QUAD128 share. -/
variable {s : State} {vd : RegIdx}

/-- `Commit` of bytes whose integer fits LEN bytes: what it cuts off is zero (R9). -/
theorem complete_commit_of_lt {n : Nat} {sg l : Bool} {sc : Word} {b : List Byte} (hb : leNat b < 256 ^ n)
    (hn : n ≤ s.cfg.maxLen) :
    complete l (commit vd n sg sc b s) = .next (s.wrote vd (.holding s.cfg.maxLen n sg sc (leNat b)) l) := by
  have hcut : commit vd n sg sc b s = commit vd n sg sc (b.take n) s := by
    simp only [commit, List.take_take, Nat.min_self]
  rw [hcut, complete_commit (List.length_take_le n b) hn, leNat_take, Nat.mod_eq_of_lt hb]

/-- A big-endian binary float of `p + 2` bytes, two of them sign and exponent, whose mantissa is committed with LEN
`len`: each field is the bits of the integer that its place in the bytes says (R161, R163, R164). -/
theorem withSpan_commit_bigEndianFloat (h : s.Wf) {p w len : Nat} (hw : w ∈ legalWidths) (hp : fieldBytes w = p)
    (hfits : p + 2 ≤ 16) (hlen : p ≤ len) (hroom : len ≤ s.cfg.maxLen) :
    let x := leNat (s.din.take (p + 2)).reverse
    let r := withSpan (p + 2) s (complete false (commit vd len (topBit (s.dinByte 0)) s.exponent15
      (extractMantissa (s.dinDown (p + 1) p) w ++ [0#8, 0#8]) s))
    (p + 2 ≤ s.dinLen → r = .next (s.wrote vd (.holding s.cfg.maxLen len (x.testBit (8 * (p + 1) + 7))
      (BitVec.ofNat 32 (x / 2 ^ (8 * p) % 2 ^ 15)) (x % 2 ^ (8 * p - 1))) false)) ∧
    (s.dinLen < p + 2 → r = .next (s.failed .invalidInput)) := by
  intro x r
  have hx : leNat ((s.reverseDin (p + 2)).din.take (p + 2)) = x := congrArg leNat (take_reverseDin h hfits)
  have hsign : topBit (s.dinByte 0) = x.testBit (8 * (p + 1) + 7) := by
    rw [← dinByte_reverseDin (k := p + 1) h hfits (by omega), topBit_dinByte (Nat.lt_succ_self _), hx]
  have hexp : s.exponent15 = BitVec.ofNat 32 (x / 2 ^ (8 * p) % 2 ^ 15) := by
    rw [State.exponent15, ← dinByte_reverseDin (j := 0) (k := p + 1) h hfits (by omega),
      ← dinByte_reverseDin (j := 1) (k := p) h hfits (by omega)]
    exact (exponentField (j := 0) (k := 8) (Nat.lt_succ_self _) rfl).trans (by rw [hx]; rfl)
  have hmag : leNat (extractMantissa (s.dinDown (p + 1) p) w ++ [0#8, 0#8]) = x % 2 ^ (8 * p - 1) := by
    rw [dinDown_eq_dinUp (lo := 0) h hfits rfl (by omega), ← hx,
      ← leNat_mantissaField (reverseDin_wf h _) hw hp (by omega) (by omega)]
    exact (leNat_append_zeros _ 2).trans (leNat_append_zeros _ 1).symm
  have hlt : x % 2 ^ (8 * p - 1) < 256 ^ len :=
    calc x % 2 ^ (8 * p - 1) < 2 ^ (8 * p - 1) := Nat.mod_lt _ (Nat.two_pow_pos _)
      _ ≤ 2 ^ (8 * len) := Nat.pow_le_pow_right (by norm_num) (by omega)
      _ = 256 ^ len := pow_mul 2 8 len
  refine ⟨fun hspan => (withSpan_pos _ hspan).trans ?_, withSpan_neg _⟩
  rw [complete_commit_of_lt (hmag ▸ hlt) hroom, hsign, hexp, hmag]

theorem exec_decFfp32 (hvd : vd.toNat < s.cfg.nv) : exec (.decFfp32 vd) s = withSpan 4 s (complete false
    (commit vd 4 (topBit (s.dinByte 3)) (low7 (s.dinByte 3)) (s.dinDown 2 3 ++ [0#8]) s)) :=
  withRegs_one _ hvd

theorem exec_decQuad128 (hvd : vd.toNat < s.cfg.nv) : exec (.decQuad128 vd) s = withSpan 16 s (complete false
    (commit vd 16 (topBit (s.dinByte 0)) s.exponent15 (extractMantissa (s.dinDown 15 14) 112 ++ [0#8, 0#8]) s)) :=
  withRegs_one _ hvd

/-- LOAD_RAW checks nothing but its register (R165). -/
theorem exec_loadRaw (hvd : vd.toNat < s.cfg.nv) (neg : Bool) : exec (.loadRaw vd neg) s =
    complete false (commit vd s.dinLen neg s.arg (s.dinUp 0 s.dinLen) s) :=
  withRegs_one _ hvd

end Commands

/-- Settles O38: the last byte of the input is the lowest byte of its integer, and the three before it are the rest. -/
theorem decFfp32StoresTheFields : Obligations.DecFfp32StoresTheFields := by
  refine ⟨selectedBy_row .decFfp32 (by simp [Opcode.build, eq_comm]), fun s vd h hvd => ?_⟩
  intro x
  have hmax := sixteen_le_maxLen h
  have hx : leNat ((s.reverseDin 4).din.take 4) = x := congrArg leNat (take_reverseDin h (by norm_num))
  have hlast : s.dinByte 3 = (s.reverseDin 4).dinByte 0 := (dinByte_reverseDin (n := 4) h (by norm_num) rfl).symm
  have hsign : topBit (s.dinByte 3) = x.testBit 7 := by
    rw [hlast, topBit_dinByte (n := 4) (by norm_num), hx]
  have hexp : low7 (s.dinByte 3) = BitVec.ofNat 32 (x % 2 ^ 7) := by
    rw [low7_eq, hlast, toNat_dinByte (n := 4) (by norm_num), hx, pow_zero, Nat.div_one,
      Nat.mod_mod_of_dvd _ (by norm_num)]
  have hmag : leNat (s.dinDown 2 3 ++ [0#8]) = x / 2 ^ 8 :=
    have hlen : 4 ≤ (s.reverseDin 4).din.length := le_length_din (reverseDin_wf h 4) (by norm_num)
    calc leNat (s.dinDown 2 3 ++ [0#8])
      _ = leNat (s.dinDown 2 3) := leNat_append_zeros _ 1
      _ = leNat (((s.reverseDin 4).din.drop 1).take 3) := by
        rw [dinDown_eq_dinUp (n := 4) (lo := 1) h (by norm_num) rfl (by norm_num), dinUp_eq _ _ _ hlen]
      _ = leNat (((s.reverseDin 4).din.take 4).drop 1) := by rw [List.drop_take]
      _ = x / 2 ^ 8 := by rw [leNat_drop, hx]; rfl
  rw [exec_decFfp32 hvd, hsign, hexp, ← hmag]
  exact withSpan_commit (by rw [List.length_append, length_dinDown]; rfl) (by omega)

/-- Settles O39: 8 mantissa bytes at either legal width, whose integer fits each legal P_EXT_LEN
(`withSpan_commit_bigEndianFloat`). -/
theorem decExt80StoresTheFields : Obligations.DecExt80StoresTheFields := by
  refine ⟨selectedBy_row .decExt80 (by simp [Opcode.build, eq_comm]), fun s vd h hvd => ?_⟩
  have ⟨⟨_, _, hext, hwidth⟩, _⟩ := h
  have ⟨hw, hp⟩ : s.cfg.extMantW ∈ legalWidths ∧ fieldBytes s.cfg.extMantW = 8 := by
    rcases hwidth with hwidth | hwidth <;> rw [hwidth] <;> decide
  rw [exec_decExt80 hvd]
  exact withSpan_commit_bigEndianFloat (p := 8) h hw hp (by norm_num) (by omega) (extLen_le_maxLen h)

/-- Settles O40: 14 mantissa bytes in a register of 16 (`withSpan_commit_bigEndianFloat`). -/
theorem decQuad128StoresTheFields : Obligations.DecQuad128StoresTheFields := by
  refine ⟨selectedBy_row .decQuad128 (by simp [Opcode.build, eq_comm]), fun s vd h hvd => ?_⟩
  rw [exec_decQuad128 hvd]
  exact withSpan_commit_bigEndianFloat (p := 14) h (by decide) rfl le_rfl (by norm_num) (sixteen_le_maxLen h)

/-- Settles O41: DIN has DIN_LEN bytes and a register has room for them, since DIN_LEN is at most P_MAXLEN (R28). -/
theorem loadRawStoresTheSpan : Obligations.LoadRawStoresTheSpan := by
  refine ⟨selectedBy_row .loadRaw (by simp [Opcode.build, eq_comm]), fun s vd neg h hvd => ?_⟩
  have ⟨_, _, _, hdin, hspan⟩ := h
  have hfield : s.dinUp 0 s.dinLen = s.din.take s.dinLen := dinUp_eq s 0 _ (by omega)
  rw [exec_loadRaw hvd, complete_commit (length_dinUp ..).le hspan, hfield]

end Sys2Proof.Machine
end

section
/-! Arithmetic, rescale and narrowing (44_arithmetic.md, R180 to R189; O42 to O47, O49 to O51, O53). What the loops of
MagAdd, MagSub and MagCmp compute, and the register that a sum leaves, stands with O48; here each rule's own statement
follows from it. The order of ADD's sources is lost in the signed sum (`signedSum_comm`). TO_F64's shifts are floors of
rationals: `scaleFloor_eq_floor` and `log_div_pow_256` tie its integer arithmetic to R189's formula. -/

namespace Sys2Proof.Machine

section ByteArithmetic
variable {l : Nat} {a b : List Byte}

/-- The byte that MagAdd and MagSub append to their loop's `l` bytes is the one at index `l`. -/
theorem getD_append_last {c : List Byte} (hc : c.length = l) (x : Byte) : (c ++ [x]).getD l 0#8 = x := by
  simp [List.getD_eq_getElem?_getD, ← hc]

/-- MagAdd's last byte is the loop's carry out (R182). -/
theorem magAdd_last_le_one (ha : a.length ≤ l) (hb : b.length ≤ l) : ((magAdd l a b).1.getD l 0#8).toNat ≤ 1 := by
  obtain ⟨hlen, hout, -⟩ := magAddLoop_spec ha hb (c := 0#9) (by simp)
  rw [magAdd, getD_append_last hlen, BitVec.toNat_setWidth]
  exact (Nat.mod_le ..).trans hout

/-- MagSub appends a zero byte (R183). -/
theorem magSub_last (ha : a.length ≤ l) (hb : b.length ≤ l) : (magSub l a b).getD l 0#8 = 0#8 := by
  obtain ⟨hlen, -⟩ := magSubLoop_spec ha hb (w := 0) (Nat.zero_le 1)
  rw [magSub, getD_append_last hlen]

theorem magAddLoop_comm (l : Nat) (a b : List Byte) (c : BitVec 9) : magAddLoop l a b c = magAddLoop l b a c := by
  induction l generalizing a b c with
  | zero => rfl
  | succ n ih =>
    have hswap : c + (a.headD 0#8).setWidth 9 + (b.headD 0#8).setWidth 9 =
        c + (b.headD 0#8).setWidth 9 + (a.headD 0#8).setWidth 9 := add_right_comm ..
    simp only [magAddLoop, hswap, ih a.tail b.tail]

theorem magAdd_comm (l : Nat) (a b : List Byte) : magAdd l a b = magAdd l b a := by
  simp only [magAdd, magAddLoop_comm l a b]

/-- The carry register is MagAdd's, or 0 where MagSub ran, in either order (R184, log 6). -/
theorem signedSum_carry_comm (l : Nat) (a b : List Byte) (sa sb : Bool) :
    (signedSum l a b sa sb).2.2 = (signedSum l b a sb sa).2.2 := by
  by_cases hs : sa = sb
  · rw [signedSum, signedSum, if_pos hs, if_pos hs.symm, magAdd_comm]
  · rw [signedSum, signedSum, if_neg hs, if_neg (Ne.symm hs)]
    split_ifs <;> rfl

/-- A signed sum does not depend on the order of its operands: both orders denote one integer in one number of bytes,
which fixes the bytes and, with the sign of 0 cleared (R186), the sign. -/
theorem signedSum_comm (ha : a.length ≤ l) (hb : b.length ≤ l) (sa sb : Bool) :
    (signedSum l a b sa sb).1 = (signedSum l b a sb sa).1 ∧
      ((signedSum l a b sa sb).2.1 && leNat (signedSum l a b sa sb).1 != 0) =
        ((signedSum l b a sb sa).2.1 && leNat (signedSum l b a sb sa).1 != 0) := by
  obtain ⟨hlen, hval⟩ := signedSum_spec ha hb sa sb
  obtain ⟨hlen', hval'⟩ := signedSum_spec hb ha sb sa
  rw [add_comm] at hval'
  obtain ⟨hsign, hmag⟩ := sign_magnitude_of_withSign hval
  obtain ⟨hsign', hmag'⟩ := sign_magnitude_of_withSign hval'
  exact ⟨leNat_inj (hlen.trans hlen'.symm) (hmag.trans hmag'.symm), hsign.trans hsign'.symm⟩
end ByteArithmetic

/-- Settles O42: the `d` zero bytes stand below the magnitude's LEN bytes. -/
theorem alignMultipliesByThePadding : Obligations.AlignMultipliesByThePadding := by
  intro m s r hr _
  exact ⟨length_alignTo hr s, leNat_alignTo r s, List.take_left' List.length_replicate⟩

/-- Settles O43: the comparison over enough positions is that of the integers (`magCmp_eq_compare`). -/
theorem magCmpComparesTheIntegers : Obligations.MagCmpComparesTheIntegers :=
  fun _ _ => magCmp_eq_compare (le_max_left ..) (le_max_right ..)

/-- Settles O44: the loop with carry in and carry out is exact, and its carry out is the last byte. -/
theorem magAddIsExact : Obligations.MagAddIsExact := by
  intro a b
  obtain ⟨hlen, hval⟩ := magAdd_spec (le_max_left a.length b.length) (le_max_right a.length b.length)
  exact ⟨hlen, hval, magAdd_last_le_one (le_max_left ..) (le_max_right ..)⟩

/-- Settles O45: a difference that is not negative leaves no borrow (`magSub_spec`). -/
theorem magSubIsExact : Obligations.MagSubIsExact := by
  intro a b hle
  obtain ⟨hlen, hval⟩ := magSub_spec (le_max_left a.length b.length) (le_max_right a.length b.length) hle
  exact ⟨hlen, hval, magSub_last (le_max_left ..) (le_max_right ..)⟩

section Sums
variable {s : State} {vd va vb : RegIdx}

theorem withSources_pair_pos (k : Result) (ha : (s.reg va).alloc = true) (hb : (s.reg vb).alloc = true) :
    withSources [va, vb] s k = k :=
  if_pos (by simp [ha, hb])

theorem withSources_pair_neg (k : Result) (h : (s.reg va).alloc = false ∨ (s.reg vb).alloc = false) :
    withSources [va, vb] s k = .next (s.failed .emptyOperand) :=
  if_neg (by simpa [imp_iff_not_or] using h)

/-- The three outcomes of the body that ADD and SUB share (R184, R185). -/
theorem addSigned_outcomes (h : s.Wf) (vd va vb : RegIdx) (sb : Bool) :
    ((s.reg va).alloc = true → (s.reg vb).alloc = true → sumRoom (s.reg va) (s.reg vb) ≤ s.cfg.maxLen →
      ∃ c, addSigned vd va vb sb s =
        .next { s.wrote vd (sumReg s.cfg.maxLen (s.reg va) (s.reg vb) sb) false with carry := c }) ∧
    ((s.reg va).alloc = false ∨ (s.reg vb).alloc = false →
      addSigned vd va vb sb s = .next (s.failed .emptyOperand)) ∧
    ((s.reg va).alloc = true → (s.reg vb).alloc = true → s.cfg.maxLen < sumRoom (s.reg va) (s.reg vb) →
      addSigned vd va vb sb s = .next (s.failed .capacity)) := by
  obtain ⟨c, hsum⟩ := addSigned_eq h vd va vb sb
  rw [hsum]
  refine ⟨fun ha hb hroom => ⟨c, ?_⟩, withSources_pair_neg _, fun ha hb hbig => ?_⟩
  · rw [withSources_pair_pos _ ha hb, withCapacity_pos _ hroom]
  · rw [withSources_pair_pos _ ha hb, withCapacity_neg _ hbig]

theorem exec_add (hvd : vd.toNat < s.cfg.nv) (hva : va.toNat < s.cfg.nv) (hvb : vb.toNat < s.cfg.nv) :
    exec (.add vd va vb) s = addSigned vd va vb (s.reg vb).sign s :=
  withRegs_pos _ (by simpa using ⟨hvd, hva, hvb⟩)

theorem exec_sub (hvd : vd.toNat < s.cfg.nv) (hva : va.toNat < s.cfg.nv) (hvb : vb.toNat < s.cfg.nv) :
    exec (.sub vd va vb) s = addSigned vd va vb (!(s.reg vb).sign) s :=
  withRegs_pos _ (by simpa using ⟨hvd, hva, hvb⟩)

/-- Inverting the second sign makes the signed sum a difference (R185). -/
theorem sumInt_not (ra rb : ValueReg) (sb : Bool) :
    sumInt ra rb (!sb) = ra.scaledInt ra.sign (sumScale ra rb) - rb.scaledInt sb (sumScale ra rb) := by
  rw [sumInt, scaledInt_not, sub_eq_add_neg]

/-- An aligned sequence is no longer than its aligned length, whatever the register. -/
theorem length_alignTo_le (r : ValueReg) (sc : Nat) : (r.alignTo sc).length ≤ r.alignedLen sc := by
  have hbytes : r.bytes.length ≤ r.len := List.length_take_le ..
  rw [ValueReg.alignTo, List.length_append, List.length_replicate, ValueReg.alignedLen]
  omega

theorem sumScale_comm (ra rb : ValueReg) : sumScale ra rb = sumScale rb ra := max_comm ..

theorem sumLen_comm (ra rb : ValueReg) : sumLen ra rb = sumLen rb ra := by
  rw [sumLen, sumLen, sumScale_comm, max_comm]

/-- The adder's result for two registers, in either order (R190). -/
theorem alignedSum_comm (ra rb : ValueReg) :
    (alignedSum ra rb rb.sign).1 = (alignedSum rb ra ra.sign).1 ∧
      ((alignedSum ra rb rb.sign).2.1 && leNat (alignedSum ra rb rb.sign).1 != 0) =
        ((alignedSum rb ra ra.sign).2.1 && leNat (alignedSum rb ra ra.sign).1 != 0) ∧
      (alignedSum ra rb rb.sign).2.2 = (alignedSum rb ra ra.sign).2.2 := by
  have hla : (ra.alignTo (sumScale ra rb)).length ≤ sumLen ra rb := (length_alignTo_le ..).trans (le_max_left ..)
  have hlb : (rb.alignTo (sumScale ra rb)).length ≤ sumLen ra rb := (length_alignTo_le ..).trans (le_max_right ..)
  rw [alignedSum, alignedSum, sumScale_comm rb ra, sumLen_comm rb ra]
  obtain ⟨hbytes, hsign⟩ := signedSum_comm hla hlb ra.sign rb.sign
  exact ⟨hbytes, hsign, signedSum_carry_comm ..⟩

/-- The shared checks do not depend on the order of the registers they name. -/
theorem withSources_perm {rs rs' : List RegIdx} (h : rs.Perm rs') (s : State) (k : Result) :
    withSources rs s k = withSources rs' s k := by
  rw [withSources, withSources, h.all_eq]

theorem withRegs_perm {rs rs' : List RegIdx} (h : rs.Perm rs') (s : State) (k : Result) :
    withRegs rs s k = withRegs rs' s k := by
  rw [withRegs, withRegs, h.all_eq]

/-- ADD's body in either order of its sources, in any state (R190). -/
theorem addSigned_comm (vd va vb : RegIdx) (s : State) :
    addSigned vd va vb (s.reg vb).sign s = addSigned vd vb va (s.reg va).sign s := by
  obtain ⟨hbytes, hsign, hcarry⟩ := alignedSum_comm (s.reg va) (s.reg vb)
  rw [addSigned_eq_alignedSum, addSigned_eq_alignedSum, withSources_perm (.swap vb va [])]
  dsimp only
  rw [hsign, hcarry, hbytes, sumRoom_eq, sumRoom_eq, sumLen_comm, sumScale_comm]
end Sums

/-- Settles O46: the outcomes of the shared body, with V[vb]'s own sign. -/
theorem addWritesTheExactSum : Obligations.AddWritesTheExactSum := by
  refine ⟨selectedBy_row .add (by simp [Opcode.build, eq_comm]), fun s vd va vb h hvd hva hvb => ?_⟩
  rw [exec_add hvd hva hvb]
  exact addSigned_outcomes h vd va vb (s.reg vb).sign

/-- Settles O47: the outcomes of the shared body, with V[vb]'s sign inverted (`sumInt_not`). -/
theorem subWritesTheExactDifference : Obligations.SubWritesTheExactDifference := by
  refine ⟨selectedBy_row .sub (by simp [Opcode.build, eq_comm]), fun s vd va vb h hvd hva hvb => ?_⟩
  have houtcomes := addSigned_outcomes h vd va vb (!(s.reg vb).sign)
  rw [sumReg, sumInt_not] at houtcomes
  rw [exec_sub hvd hva hvb]
  exact houtcomes

/-- Settles O49: the checks and the body each answer the same in either order. -/
theorem addIsCommutative : Obligations.AddIsCommutative := by
  intro s vd va vb
  calc exec (.add vd va vb) s
      = withRegs [vd, va, vb] s (addSigned vd va vb (s.reg vb).sign s) := rfl
    _ = withRegs [vd, vb, va] s (addSigned vd vb va (s.reg va).sign s) := by
        rw [withRegs_perm ((List.Perm.swap vb va []).cons vd), addSigned_comm]

section Rescale
/-! SCALE_TO on a register that exists, one equation per branch (R187). -/
variable {s : State} {vd : RegIdx}

theorem exec_scaleTo_empty (hvd : vd.toNat < s.cfg.nv) (he : (s.reg vd).alloc = false) :
    exec (.scaleTo vd) s = .next (s.failed .emptyOperand) :=
  (withRegs_one _ hvd).trans (withSources_neg _ he)

theorem exec_scaleTo_same (hvd : vd.toNat < s.cfg.nv) (ha : (s.reg vd).alloc = true)
    (heq : s.argNat = (s.reg vd).scale.toNat) : exec (.scaleTo vd) s = .next (s.completed false) :=
  (withRegs_one _ hvd).trans ((withSources_pos _ ha).trans (if_pos heq))

theorem exec_scaleTo_up (hvd : vd.toNat < s.cfg.nv) (ha : (s.reg vd).alloc = true)
    (hlt : (s.reg vd).scale.toNat < s.argNat) : exec (.scaleTo vd) s =
      withCapacity ((s.reg vd).alignedLen s.argNat) s (complete false
        (commit vd ((s.reg vd).alignedLen s.argNat) (s.reg vd).sign s.arg ((s.reg vd).alignTo s.argNat) s)) :=
  (withRegs_one _ hvd).trans ((withSources_pos _ ha).trans ((if_neg hlt.ne').trans (if_pos hlt)))

theorem exec_scaleTo_down (hvd : vd.toNat < s.cfg.nv) (ha : (s.reg vd).alloc = true)
    (hlt : s.argNat < (s.reg vd).scale.toNat) : exec (.scaleTo vd) s =
      complete (((s.reg vd).bytes.take ((s.reg vd).scale.toNat - s.argNat)).any (fun b => b != 0#8))
        (commit vd ((s.reg vd).len - ((s.reg vd).scale.toNat - s.argNat)) (s.reg vd).sign s.arg
          ((s.reg vd).bytes.drop ((s.reg vd).scale.toNat - s.argNat)) s) :=
  (withRegs_one _ hvd).trans ((withSources_pos _ ha).trans ((if_neg hlt.ne).trans (if_neg hlt.not_gt)))
end Rescale

/-- A nonzero byte is dropped exactly if the remainder is not 0 (R187). -/
theorem any_take_eq (n : Nat) (a : List Byte) :
    (a.take n).any (fun b => b != 0#8) = decide (leNat a % 256 ^ n ≠ 0) := by
  rw [← leNat_take, Bool.eq_iff_iff, decide_eq_true_iff, Ne, leNat_eq_zero_iff, Bool.not_eq_false]

/-- Settles O50: one clause per branch; `Align` multiplies by the padding, and dropping low bytes divides. -/
theorem scaleToShiftsTheMagnitude : Obligations.ScaleToShiftsTheMagnitude := by
  refine ⟨selectedBy_row .scaleTo (by simp [Opcode.build, eq_comm]), fun s vd h hvd =>
    ⟨exec_scaleTo_empty hvd, exec_scaleTo_same hvd, fun ha hlt hroom => ?_, fun ha hlt hbig => ?_, fun ha hlt => ?_⟩⟩
  · rw [exec_scaleTo_up hvd ha hlt, ← leNat_alignTo]
    exact (withCapacity_pos _ hroom).trans (complete_commit (length_alignTo (reg_wf h vd) _).le hroom)
  · rw [exec_scaleTo_up hvd ha hlt]
    exact withCapacity_neg _ hbig
  · have hlen : ((s.reg vd).bytes.drop ((s.reg vd).scale.toNat - s.argNat)).length =
        (s.reg vd).len - ((s.reg vd).scale.toNat - s.argNat) := by
      rw [List.length_drop, length_bytes (reg_wf h vd)]
    have hroom := (Nat.sub_le (s.reg vd).len ((s.reg vd).scale.toNat - s.argNat)).trans (len_le_maxLen h vd)
    rw [exec_scaleTo_down hvd ha hlt, complete_commit hlen.le hroom, leNat_drop, any_take_eq]
    rfl

/-- Settles O51: the integer part and the loss bit are those of `narrowU64_eq`. -/
theorem toU64ReturnsTheIntegerPart : Obligations.ToU64ReturnsTheIntegerPart := by
  refine ⟨selectedBy_row .toU64 (by simp [Opcode.build, eq_comm]), fun s va h hva => ?_⟩
  intro r t fr
  have hsigned : withSign r.sign t = if r.sign then -(t : Int) else (t : Int) := by
    cases r.sign <;> simp
  refine ⟨fun ha => ?_, fun he => (withRegs_one _ hva).trans (withSources_neg _ he)⟩
  rw [exec_toU64_of_alloc hva ha, narrowU64_eq, ← hsigned]
  rfl

section Doubles
/-! TO_F64's integer arithmetic is R189's rational one (log 10). -/

/-- A scale of `c` bytes is `8 * c` bits. -/
theorem div_pow_256_mul_zpow (q : ℚ) (c : Nat) (x : Int) :
    q / 256 ^ c * (2 : ℚ) ^ x = q * (2 : ℚ) ^ (x - 8 * c) := by
  have hbytes : (256 : ℚ) ^ c = (2 : ℚ) ^ (8 * c : Int) := by
    rw [zpow_mul, zpow_natCast]; norm_num
  rw [zpow_sub₀ two_ne_zero, ← hbytes, div_mul_eq_mul_div, mul_div_assoc]

/-- The leading bit of a nonzero integer, in the rationals. -/
theorem zpow_log2_le {m : Nat} (hm : m ≠ 0) : (2 : ℚ) ^ (m.log2 : Int) ≤ m := by
  rw [zpow_natCast]
  exact_mod_cast Nat.log2_self_le hm

theorem lt_zpow_log2_add_one (m : Nat) : (m : ℚ) < (2 : ℚ) ^ ((m.log2 : Int) + 1) := by
  rw [← Nat.cast_add_one, zpow_natCast]
  exact_mod_cast Nat.lt_log2_self

/-- `floor(log2 q)` of `q = m * 2^x`. -/
theorem log_mul_zpow {m : Nat} (hm : m ≠ 0) (x : Int) : Int.log 2 ((m : ℚ) * 2 ^ x) = m.log2 + x := by
  have hq : (0 : ℚ) < (m : ℚ) * 2 ^ x := by positivity
  have hpow : (0 : ℚ) < 2 ^ x := by positivity
  refine le_antisymm (Int.lt_add_one_iff.mp ((Int.lt_zpow_iff_log_lt one_lt_two hq).mp ?_))
    ((Int.zpow_le_iff_le_log one_lt_two hq).mp ?_)
  · rw [Nat.cast_two, add_right_comm, zpow_add₀ two_ne_zero]
    exact mul_lt_mul_of_pos_right (lt_zpow_log2_add_one m) hpow
  · rw [Nat.cast_two, zpow_add₀ two_ne_zero]
    exact mul_le_mul_of_nonneg_right (zpow_log2_le hm) hpow.le

/-- `floor(log2 q)` of `q = m / 256^c` (R189). -/
theorem log_div_pow_256 {m : Nat} (hm : m ≠ 0) (c : Nat) :
    Int.log 2 ((m : ℚ) / 256 ^ c) = (m.log2 : Int) - 8 * c := by
  have hshift := div_pow_256_mul_zpow (m : ℚ) c 0
  rw [zpow_zero, mul_one] at hshift
  rw [hshift, log_mul_zpow hm, zero_sub, sub_eq_add_neg]

/-- The right shift is a division by a power of 2. -/
theorem scaleFloor_negSucc (m n : Nat) : scaleFloor m (.negSucc n) = m / 2 ^ (n + 1) :=
  Nat.shiftRight_eq_div_pow ..

theorem mul_zpow_negSucc (m n : Nat) : (m : ℚ) * (2 : ℚ) ^ Int.negSucc n = (m : ℚ) / (2 ^ (n + 1) : Nat) := by
  rw [zpow_negSucc, Nat.cast_pow, Nat.cast_two, div_eq_mul_inv]

/-- `scaleFloor` is the floor of the scaled integer. -/
theorem scaleFloor_eq_floor (m : Nat) (x : Int) : (scaleFloor m x : Int) = ⌊(m : ℚ) * (2 : ℚ) ^ x⌋ := by
  cases x with
  | ofNat n =>
    rw [Int.ofNat_eq_natCast, zpow_natCast]
    exact_mod_cast (Int.floor_natCast (R := ℚ) (m * 2 ^ n)).symm
  | negSucc n => rw [scaleFloor_negSucc, mul_zpow_negSucc, Rat.floor_natCast_div_natCast]; rfl

/-- The remainder is 0; where no bit of `m` reaches the power of 2, `m` itself is the remainder. -/
theorem scaleExact_negSucc (m n : Nat) : scaleExact m (.negSucc n) = true ↔ 2 ^ (n + 1) ∣ m := by
  rw [scaleExact, Nat.dvd_iff_mod_eq_zero]
  split_ifs with hle
  · exact beq_iff_eq
  · have hlt : m < 2 ^ (n + 1) := Nat.lt_log2_self.trans_le (Nat.pow_le_pow_right two_pos (by omega))
    rw [Nat.mod_eq_of_lt hlt, beq_iff_eq]

/-- `scaleExact` says that the floor loses nothing. -/
theorem scaleExact_iff (m : Nat) (x : Int) : scaleExact m x = true ↔ (⌊(m : ℚ) * (2 : ℚ) ^ x⌋ : ℚ) = m * 2 ^ x := by
  rw [← scaleFloor_eq_floor]
  cases x with
  | ofNat n => simp [scaleExact, scaleFloor]
  | negSucc n =>
    rw [scaleExact_negSucc, scaleFloor_negSucc, mul_zpow_negSucc, Int.cast_natCast]
    constructor
    · intro hdvd
      exact Nat.cast_div_charZero hdvd
    · intro heq
      rw [eq_div_iff (by positivity)] at heq
      exact ⟨m / 2 ^ (n + 1), by rw [Nat.mul_comm]; exact_mod_cast heq.symm⟩

/-- A normal double's significand has its leading bit (R189). -/
theorem two_pow_52_le_scaleFloor {m : Nat} (hm : m ≠ 0) : 2 ^ 52 ≤ scaleFloor m (52 - m.log2) := by
  have hlead : (2 : ℚ) ^ 52 ≤ m * 2 ^ (52 - (m.log2 : Int)) :=
    calc (2 : ℚ) ^ 52 = 2 ^ (m.log2 : Int) * 2 ^ (52 - (m.log2 : Int)) := by
          rw [← zpow_add₀ two_ne_zero, add_sub_cancel]; rfl
      _ ≤ m * 2 ^ (52 - (m.log2 : Int)) := mul_le_mul_of_nonneg_right (zpow_log2_le hm) (by positivity)
  have hfloor : (2 ^ 52 : Int) ≤ scaleFloor m (52 - m.log2) := by
    rw [scaleFloor_eq_floor, Int.le_floor]
    exact_mod_cast hlead
  exact_mod_cast hfloor

/-- TO_F64 of a zero magnitude (R189). -/
theorem narrowF64_zero (neg : Bool) (c : Nat) : narrowF64 neg 0 c = (BitVec.ofNat 64 (2 ^ 63 * neg.toNat), false) := by
  cases neg <;> rfl

/-- Bit 63 of a double (R189). -/
theorem cast_signBit (neg : Bool) : ((if neg then 2 ^ 63 else 0 : Nat) : Int) = 2 ^ 63 * (neg.toNat : Int) := by
  cases neg <;> rfl

section Nonzero
variable {m c : Nat} {e : Int}

/-- The fields of a normal double (R189). -/
theorem narrowF64_normal (neg : Bool) (hm : m ≠ 0) (he : e = (m.log2 : Int) - 8 * c) (hnormal : -1022 ≤ e) :
    narrowF64 neg m c = (BitVec.ofInt 64 (2 ^ 63 * (neg.toNat : Int) +
      ((e + 1023) * 2 ^ 52 + (scaleFloor m (52 - e - 8 * c) - 2 ^ 52))), !scaleExact m (52 - e - 8 * c)) := by
  have hlead : 2 ^ 52 ≤ scaleFloor m (52 - e - 8 * c) := by
    have hshift : 52 - e - 8 * c = 52 - (m.log2 : Int) := by omega
    rw [hshift]
    exact two_pow_52_le_scaleFloor hm
  rw [narrowF64, if_neg hm, ← he, if_pos hnormal, ← cast_signBit]
  dsimp only
  rw [← BitVec.ofInt_natCast]
  refine Prod.ext (congrArg (BitVec.ofInt 64) ?_) rfl
  omega

/-- The fields of a subnormal double (R189). -/
theorem narrowF64_subnormal (neg : Bool) (hm : m ≠ 0) (he : e = (m.log2 : Int) - 8 * c) (hsub : ¬ -1022 ≤ e) :
    narrowF64 neg m c = (BitVec.ofInt 64 (2 ^ 63 * (neg.toNat : Int) + scaleFloor m (1074 - 8 * c)),
      !scaleExact m (1074 - 8 * c)) := by
  rw [narrowF64, if_neg hm, ← he, if_neg hsub, ← cast_signBit, ← Int.natCast_add, BitVec.ofInt_natCast]

/-- TO_F64 of a nonzero magnitude, in the rationals of R189. -/
theorem narrowF64_of_ne_zero (neg : Bool) (hm : m ≠ 0) {q : ℚ} (hq : q = (m : ℚ) / 256 ^ c) {x : Int}
    (he : e = Int.log 2 q) (hx : x = if -1022 ≤ e then 52 - e else 1074) :
    (narrowF64 neg m c).1 = BitVec.ofInt 64 (2 ^ 63 * (neg.toNat : Int) +
      if -1022 ≤ e then (e + 1023) * 2 ^ 52 + (⌊q * (2 : ℚ) ^ x⌋ - 2 ^ 52) else ⌊q * (2 : ℚ) ^ x⌋) ∧
    ((narrowF64 neg m c).2 = true ↔ (⌊q * (2 : ℚ) ^ x⌋ : ℚ) ≠ q * (2 : ℚ) ^ x) := by
  have hlog : e = (m.log2 : Int) - 8 * c := by rw [he, hq, log_div_pow_256 hm]
  rw [hq, div_pow_256_mul_zpow, Ne, ← scaleExact_iff, ← scaleFloor_eq_floor, hx]
  by_cases hnormal : -1022 ≤ e
  · rw [narrowF64_normal neg hm hlog hnormal, if_pos hnormal, if_pos hnormal, Bool.not_eq_true', Bool.not_eq_true]
    exact ⟨rfl, Iff.rfl⟩
  · rw [narrowF64_subnormal neg hm hlog hnormal, if_neg hnormal, if_neg hnormal, Bool.not_eq_true', Bool.not_eq_true]
    exact ⟨rfl, Iff.rfl⟩
end Nonzero

theorem exec_toF64_of_alloc {s : State} {va : RegIdx} (hva : va.toNat < s.cfg.nv) (ha : (s.reg va).alloc = true) :
    exec (.toF64 va) s = .next
      { s.completed (narrowF64 (s.reg va).sign (s.reg va).magNat (s.reg va).scale.toNat).2 with
        res := (narrowF64 (s.reg va).sign (s.reg va).magNat (s.reg va).scale.toNat).1 } :=
  (withRegs_one _ hva).trans (withSources_pos _ ha)
end Doubles

/-- Settles O53: a zero magnitude gives a zero, any other the pattern of `narrowF64_of_ne_zero`. -/
theorem toF64RoundsTowardZero : Obligations.ToF64RoundsTowardZero := by
  refine ⟨selectedBy_row .toF64 (by simp [Opcode.build, eq_comm]), fun s va h hva => ?_⟩
  intro r q e x m
  have hzero : q = 0 ↔ r.magNat = 0 := by simp [q]
  refine ⟨fun ha hq => ?_, fun ha hq => ?_, fun he => (withRegs_one _ hva).trans (withSources_neg _ he)⟩
  · rw [exec_toF64_of_alloc hva ha, hzero.mp hq, narrowF64_zero]
  · obtain ⟨hres, hlossy⟩ := narrowF64_of_ne_zero r.sign (mt hzero.mpr hq) (q := q) rfl (e := e) rfl (x := x) rfl
    exact ⟨_, hlossy, by rw [exec_toF64_of_alloc hva ha, hres]⟩

end Sys2Proof.Machine
end

section
/-! Errors and STATUS (60_exceptions.md, R220 to R228; O8, O54 to O57). Every command is one chain of checks in the
order of R221's codes, and then its completion (`exec_completesChecked`). So the check that fails first has the lowest
code that applies (`checked_reportsLowest`), and what a CMD write does to STATUS is one lemma over the word
(`step_command_cases`). -/

namespace Sys2Proof.Machine

section Report
/-! The lowest of several errors (R225). `A e` says that the condition of code `e` holds. -/
variable {A : ErrCode → Prop} {s : State} {k r r' : Result}

/-- `r` goes on as `k` if no condition of `A` holds, and otherwise fails with the lowest code whose condition does. -/
def ReportsLowest (A : ErrCode → Prop) (s : State) (k r : Result) : Prop :=
  ((∀ e, ¬A e) ∧ r = k) ∨ ∃ e, A e ∧ (∀ e', A e' → e.code ≤ e'.code) ∧ r = .next (s.failed e)

/-- No condition of a code below `n` holds. -/
def ClearBelow (A : ErrCode → Prop) (n : Nat) : Prop := ∀ e, A e → n ≤ e.code

/-- No two errors share a code (R221). -/
theorem errCode_injective : Function.Injective ErrCode.code :=
  Function.LeftInverse.injective
    (g := fun n => [.ok, .illegalCmd, .badReg, .badWidth, .invalidInput, .emptyOperand, .capacity].getD n .ok)
    fun e => by cases e <;> rfl

theorem ClearBelow.succ {e : ErrCode} (h : ClearBelow A e.code) (he : ¬A e) : ClearBelow A (e.code + 1) :=
  fun e' he' => Nat.lt_of_le_of_ne (h e' he') fun hcode => he (errCode_injective hcode ▸ he')

/-- A check of the next code: it fails, and no lower code applies, or it goes on. -/
theorem ReportsLowest.check {e : ErrCode} (hbelow : ClearBelow A e.code)
    (hcheck : (¬A e ∧ r = r') ∨ (A e ∧ r = .next (s.failed e)))
    (hrest : ClearBelow A (e.code + 1) → ReportsLowest A s k r') : ReportsLowest A s k r := by
  obtain ⟨hno, rfl⟩ | ⟨hyes, hfail⟩ := hcheck
  · exact hrest (hbelow.succ hno)
  · exact .inr ⟨e, hyes, hbelow, hfail⟩
end Report

section Checks
/-! The chain of checks of a decoded command (R82, R221). -/

/-- BAD_WIDTH if the command is DEC_MANT and ARG is no legal width (R126). -/
def withWidth (i : Instr) (s : State) (k : Result) : Result :=
  match i with
  | .decMant _ => if legalWidths.contains s.argNat = false then raiseError .badWidth s else k
  | _ => k

/-- The checks of a command, in the order of R221's codes. -/
def checked (i : Instr) (s : State) (k : Result) : Result :=
  withRegs i.regs s <| withWidth i s <| withSpan (spanNeeded i s) s <| withSources (sourcesOf i) s <|
    withCapacity (roomNeeded i s) s k

theorem withWidth_cases (i : Instr) (s : State) (k : Result) :
    (¬ErrorApplies i s .badWidth ∧ withWidth i s k = k) ∨
      (ErrorApplies i s .badWidth ∧ withWidth i s k = .next (s.failed .badWidth)) := by
  by_cases h : ErrorApplies i s .badWidth
  · obtain ⟨⟨vd, rfl⟩, hw⟩ := h
    exact .inr ⟨⟨⟨vd, rfl⟩, hw⟩, if_pos (by simpa [legalWidths, State.argNat] using hw)⟩
  · refine .inl ⟨h, ?_⟩
    cases i with
    | decMant vd =>
      have hw : s.argNat ∈ legalWidths := by_contra fun hw => h ⟨⟨vd, rfl⟩, hw⟩
      exact if_neg (by simpa using hw)
    | _ => rfl

/-- The chain reports the lowest error that applies: each check is of the next code. -/
theorem checked_reportsLowest (i : Instr) (s : State) (k : Result) :
    ReportsLowest (ErrorApplies i s) s k (checked i s k) := by
  have hdecoded : ClearBelow (ErrorApplies i s) ErrCode.badReg.code := by
    intro e he
    cases e with
    | ok | illegalCmd => exact he.elim
    | _ => decide
  unfold checked
  refine .check (e := .badReg) hdecoded (by simpa [ErrorApplies] using withRegs_cases _ s _) fun hregs => ?_
  refine .check (e := .badWidth) hregs (withWidth_cases i s _) fun hwidth => ?_
  refine .check (e := .invalidInput) hwidth (by simpa [ErrorApplies] using withSpan_cases _ s _) fun hspan => ?_
  refine .check (e := .emptyOperand) hspan (by simpa [ErrorApplies] using withSources_cases _ s _) fun hsrc => ?_
  refine .check (e := .capacity) hsrc (by simpa [ErrorApplies] using withCapacity_cases _ s _) fun hroom => ?_
  refine .inl ⟨fun e he => ?_, rfl⟩
  have hlow : ErrCode.capacity.code < e.code := hroom e he
  cases e <;> exact absurd hlow (by decide)

/-- The commands that may lose part of a value (R224). -/
def MayLose (i : Instr) : Prop := ∃ r, i = .scaleTo r ∨ i = .toU64 r ∨ i = .toF64 r

/-- `r` is the checks of a command and then its completion: the results are written, STATUS is as it was, and there is a
loss only where the command may lose (R223, R224). -/
def CompletesChecked (i : Instr) (s : State) (r : Result) : Prop :=
  ∃ l u, r = checked i s (complete l u) ∧ u.status = s.status ∧ (l = true → MayLose i)

/-- GROW_BUFFER checks for room exactly where it writes (R101). -/
theorem execGrowBuffer_completesChecked (vd : RegIdx) (s : State) :
    CompletesChecked (.growBuffer vd) s (execGrowBuffer vd s) := by
  unfold CompletesChecked checked execGrowBuffer
  by_cases hnew : (s.reg vd).alloc = false
  · have hroom : roomNeeded (.growBuffer vd) s = s.argNat := if_neg (by simp [hnew])
    simp only [hroom, if_pos hnew]
    exact ⟨false, _, rfl, rfl, nofun⟩
  by_cases hle : s.argNat ≤ (s.reg vd).len
  · have hroom : roomNeeded (.growBuffer vd) s = 0 := if_pos ⟨(Bool.not_eq_false _).mp hnew, hle⟩
    simp only [hroom, if_neg hnew, if_pos hle]
    exact ⟨false, s, rfl, rfl, nofun⟩
  · have hroom : roomNeeded (.growBuffer vd) s = s.argNat := if_neg fun ⟨_, h⟩ => hle h
    simp only [hroom, if_neg hnew, if_neg hle]
    exact ⟨false, _, rfl, rfl, nofun⟩

/-- COPY checks its source exactly where it copies (R103). -/
theorem execCopy_completesChecked (vd va : RegIdx) (s : State) :
    CompletesChecked (.copy vd va) s (execCopy vd va s) := by
  unfold CompletesChecked execCopy checked sourcesOf
  dsimp only
  split_ifs
  · exact ⟨false, s, rfl, rfl, nofun⟩
  · exact ⟨false, _, rfl, rfl, nofun⟩

/-- SCALE_TO checks for room exactly where it pads (R187). -/
theorem execScaleTo_completesChecked (vd : RegIdx) (s : State) :
    CompletesChecked (.scaleTo vd) s (execScaleTo vd s) := by
  have hlossy {l : Bool} : l = true → MayLose (.scaleTo vd) := fun _ => ⟨vd, .inl rfl⟩
  unfold CompletesChecked checked execScaleTo
  by_cases hsame : s.argNat = (s.reg vd).scale.toNat
  · have hroom : roomNeeded (.scaleTo vd) s = 0 := if_neg (Nat.not_lt.mpr hsame.le)
    simp only [hroom, if_pos hsame]
    exact ⟨false, s, rfl, rfl, hlossy⟩
  by_cases hup : (s.reg vd).scale.toNat < s.argNat
  · have hroom : roomNeeded (.scaleTo vd) s = (s.reg vd).len + (s.argNat - (s.reg vd).scale.toNat) := if_pos hup
    simp only [hroom, if_neg hsame, if_pos hup]
    exact ⟨false, _, rfl, rfl, hlossy⟩
  · have hroom : roomNeeded (.scaleTo vd) s = 0 := if_neg hup
    simp only [hroom, if_neg hsame, if_neg hup]
    exact ⟨_, _, rfl, rfl, hlossy⟩

/-- Every command is the one chain of checks and then its completion: a check that a command does not make is one that
cannot fail, of no byte or of no register. -/
theorem exec_completesChecked (i : Instr) (s : State) : CompletesChecked i s (exec i s) := by
  cases i with
  | createBuffer | release | fromS64 | fromU64 | fromF64 | fromF32 | decMant | decFfp32 | decExt80 | decQuad128
  | loadRaw | add | sub => exact ⟨false, _, rfl, rfl, nofun⟩
  | growBuffer vd => exact execGrowBuffer_completesChecked vd s
  | copy vd va => exact execCopy_completesChecked vd va s
  | scaleTo vd => exact execScaleTo_completesChecked vd s
  | toU64 va => exact ⟨_, _, rfl, rfl, fun _ => ⟨va, .inr (.inl rfl)⟩⟩
  | toF64 va => exact ⟨_, _, rfl, rfl, fun _ => ⟨va, .inr (.inr rfl)⟩⟩

/-- What a command answers: it completes exactly if no error applies, and else fails with the lowest code that does. -/
theorem exec_reportsLowest (i : Instr) (s : State) : ∃ (l : Bool) (u : State), u.status = s.status ∧
    (l = true → MayLose i) ∧ ReportsLowest (ErrorApplies i s) s (.next (u.completed l)) (exec i s) := by
  obtain ⟨l, u, hexec, hstatus, hlossy⟩ := exec_completesChecked i s
  exact ⟨l, u, hstatus, hlossy, hexec ▸ complete_eq l u ▸ checked_reportsLowest i s _⟩
end Checks

section Words
/-! The errors of a command word (R82, R85, R221). -/
variable {w : Word} {s : State}

/-- The words that meet no row of the opcode map are those that the decoder rejects (R82, R85). -/
theorem meets_no_row_iff : (∀ row ∈ opcodeMap, w &&& row.2.1 ≠ row.2.2) ↔ ∃ e, decode w = .error e := by
  refine ⟨exists_decode_eq_error, fun ⟨e, he⟩ => ?_⟩
  rw [opcodeMap_eq, List.forall_mem_map]
  intro op _ hrow
  obtain ⟨i, hi, -⟩ := (decodes_iff_meets_row op w).mpr hrow
  rw [he] at hi; cases hi

/-- A word that decodes has the errors of its command. -/
theorem wordErrorApplies_of_ok {i : Instr} (h : decode w = .ok i) (e : ErrCode) :
    WordErrorApplies w s e ↔ ErrorApplies i s e := by
  cases e with
  | illegalCmd => exact iff_of_false (fun hrows => by simpa [h] using meets_no_row_iff.mp hrows) id
  | _ => simp [WordErrorApplies, h]

/-- A rejected word has ILLEGAL_CMD and no other error: it has no command. -/
theorem wordErrorApplies_of_error {r : Reject} (h : decode w = .error r) (e : ErrCode) :
    WordErrorApplies w s e ↔ e = .illegalCmd := by
  cases e with
  | illegalCmd => exact iff_of_true (meets_no_row_iff.mpr ⟨r, h⟩) rfl
  | _ => simp [WordErrorApplies, h]

/-- OK is no error's code. -/
theorem not_wordErrorApplies_ok : ¬WordErrorApplies w s .ok := fun ⟨_, _, h⟩ => h

/-- What a command word answers: it completes exactly if no error applies to it, and else fails with the lowest code
that does (R222, R223, R225). -/
theorem runCommand_reportsLowest (w : Word) (s : State) : ∃ (l : Bool) (u : State), u.status = s.status ∧
    ReportsLowest (WordErrorApplies w s) s (.next (u.completed l)) (runCommand w s) := by
  cases hd : decode w with
  | error r =>
    refine ⟨false, s, rfl, .inr ⟨.illegalCmd, (wordErrorApplies_of_error hd _).mpr rfl, fun e he => ?_, ?_⟩⟩
    · rw [(wordErrorApplies_of_error hd e).mp he]
    · exact runCommand_error hd s
  | ok i =>
    obtain ⟨l, u, hstatus, -, hexec⟩ := exec_reportsLowest i s
    have hsame : WordErrorApplies w s = ErrorApplies i s := funext fun e => propext (wordErrorApplies_of_ok hd e)
    exact ⟨l, u, hstatus, by rwa [runCommand_ok hd, hsame]⟩

/-- The errors of a word do not depend on the accesses still pending. -/
theorem wordErrorApplies_pending (w : Word) (s : State) (rest : List HostEvent) (e : ErrCode) :
    WordErrorApplies w { s with pending := rest } e ↔ WordErrorApplies w s e := by
  cases e <;> exact Iff.rfl

/-- What a step that writes CMD leaves: a completion with STATUS changed as R223 says, or the failure with the lowest
code that applies (R222, R225). -/
theorem step_command_cases {t : State} {rest : List HostEvent} (hp : s.pending = .write 0x008#12 4 w :: rest)
    (ht : step s = .next t) :
    ((∀ e, ¬WordErrorApplies w s e) ∧ ∃ l, t.status = s.status.afterSuccess l) ∨
      ∃ e, WordErrorApplies w s e ∧ (∀ e', WordErrorApplies w s e' → e.code ≤ e'.code) ∧
        t = State.failed { s with pending := rest } e := by
  rw [step_cons hp, hostEvent, busWrite_cmd] at ht
  obtain ⟨l, u, hstatus, hreport⟩ := runCommand_reportsLowest w { s with pending := rest }
  simp only [ReportsLowest, wordErrorApplies_pending, ht, Host.Outcome.next.injEq] at hreport
  obtain ⟨hnone, rfl⟩ | hfail := hreport
  · exact .inl ⟨hnone, l, congrArg (Status.afterSuccess l) hstatus⟩
  · exact .inr hfail
end Words

/-- Settles O8: with no access to take, `serveHost` answers the state itself. -/
theorem stepWithoutHostAccessIdles : Obligations.StepWithoutHostAccessIdles := by
  intro s hp
  rw [step, serveHost, hp]

/-- Settles O54: a CMD write that does not complete is the one failure of R222. -/
theorem failedCommandChangesOnlyStatus : Obligations.FailedCommandChangesOnlyStatus := by
  intro s t w rest hp hstep herr
  obtain ⟨-, l, hdone⟩ | ⟨e, -, -, rfl⟩ := step_command_cases hp hstep
  · exact absurd (congrArg Status.err hdone) herr
  · rfl

/-- Settles O55: a CMD write that leaves ERR 0 completed, for a failure's code is the code of an error. -/
theorem completedCommandStatus : Obligations.CompletedCommandStatus := by
  intro s t w rest hp hstep hok
  obtain ⟨-, l, hdone⟩ | ⟨e, he, -, rfl⟩ := step_command_cases hp hstep
  · rw [hdone]; rfl
  · obtain rfl : e = .ok := hok
    exact absurd he not_wordErrorApplies_ok

/-- Settles O56: a failure has LOSSY 0, and a completion loses only where `MayLose` allows it. -/
theorem onlyRescaleAndNarrowingAreLossy : Obligations.OnlyRescaleAndNarrowingAreLossy := by
  intro i s t hexec hlossy
  obtain ⟨l, u, -, hmay, ⟨-, hdone⟩ | ⟨e, -, -, hfail⟩⟩ := exec_reportsLowest i s
  · obtain rfl : t = u.completed l := Host.Outcome.next.inj (hexec.symm.trans hdone)
    exact hmay hlossy
  · obtain rfl : t = s.failed e := Host.Outcome.next.inj (hexec.symm.trans hfail)
    exact absurd hlossy Bool.false_ne_true

/-- Settles O57: the chain of checks reports the lowest code that applies (`step_command_cases`), which is never OK. -/
theorem reportedErrorIsTheLowest : Obligations.ReportedErrorIsTheLowest := by
  intro s t w rest hp hstep
  obtain ⟨hnone, l, hdone⟩ | ⟨e, he, hlowest, rfl⟩ := step_command_cases hp hstep
  · have hok : t.status.err = .ok := congrArg Status.err hdone
    exact ⟨iff_of_true hok hnone, absurd hok⟩
  · have hne : e ≠ .ok := by
      rintro rfl
      exact not_wordErrorApplies_ok he
    exact ⟨iff_of_false hne fun hnone => hnone e he, fun _ => ⟨he, rfl, hlowest⟩⟩

end Sys2Proof.Machine
end

section
/-! Reset (R240, R243): the one state that a reset event leaves, whatever the state was before it (O9). -/

namespace Sys2Proof.Machine

section Reset
variable {s : State} {r : ValueReg} {rest : List HostEvent}

/-- A step that takes a reset event leaves the state of R240, with the rest of the queue still pending (log 3). -/
theorem step_reset (hp : s.pending = .reset :: rest) :
    step s = .next (assertReset { s with pending := rest }) := by
  rw [step_cons hp, hostEvent]

@[simp] theorem assertReset_v (s : State) :
    (assertReset s).v = List.replicate s.cfg.nv (ValueReg.empty s.cfg.maxLen) := rfl

/-- After reset every value register is empty (R241). -/
theorem eq_empty_of_mem_assertReset (hr : r ∈ (assertReset s).v) : r = ValueReg.empty s.cfg.maxLen :=
  List.eq_of_mem_replicate (assertReset_v s ▸ hr)

theorem length_assertReset_v (s : State) : (assertReset s).v.length = s.cfg.nv := by
  rw [assertReset_v, List.length_replicate]

/-- CAP encodes the parameters alone, and reset keeps those (R36, R240). -/
theorem readReg_cap_assertReset (s : State) : readReg (assertReset s) .cap = readReg s .cap := rfl

end Reset

/-- Settles O9: the step is `assertReset`; its value registers are copies of the empty one, and every other register's
value is the one that `State.resetWith` names. -/
theorem resetRestoresEveryRegister : Obligations.ResetRestoresEveryRegister := by
  intro s rest hp
  have hempty : ∀ r ∈ (assertReset { s with pending := rest }).v, r.alloc = false ∧ r.len = 0 ∧ r.sign = false ∧
      r.scale = 0#32 ∧ r.mag = List.replicate s.cfg.maxLen 0#8 := by
    intro r hr
    rw [eq_empty_of_mem_assertReset hr]
    exact ⟨rfl, rfl, rfl, rfl, rfl⟩
  exact ⟨_, step_reset hp, ⟨length_assertReset_v _, hempty⟩, rfl, rfl, rfl, rfl, rfl, rfl, rfl, rfl,
    readReg_cap_assertReset _, rfl, rfl, rfl⟩

end Sys2Proof.Machine
end
